-- ==== Sys2Proof/Word.lean ====
section
/-! DEFINITION. The word types of the POCSAG encoder core (00_scope.md R7, R9): every value is an unsigned bit vector of a
stated width, or a natural number where the spec says so. -/

namespace Sys2Proof

/-- An output word, 32 bits (R7 `WORD_BITS`). -/
abbrev Word := BitVec 32

/-- One message byte or character, 8 bits (R12, R29). -/
abbrev Byte := BitVec 8

/-- A digit-table entry, 4 bits (R24). -/
abbrev Nibble := BitVec 4

/-- The input of the Checksum Unit and the Codeword Packer, 21 bits, bit 20 the flag (R42). -/
abbrev Data21 := BitVec 21

/-- A data field, 20 bits (R17, R44). -/
abbrev Field20 := BitVec 20

end Sys2Proof
end

