-- ==== Sys2Proof/Config.lean ====
section
/-! DEFINITION. What is fixed for the hardware: the parameters of 00_scope.md R7, the hardwired constants and digit ROM of
10_state.md R23 and R24 (log 20), the parameters the source leaves open (R8, log 6), and the free values: constants without
a body that stand for the values the spec leaves unspecified (93_implementation_defined.md U12, U13; logs 2, 13). -/

namespace Sys2Proof.Config

/-- R7 `GEN`: the CRC generator polynomial, 11 bits. -/
def GEN : BitVec 11 := 0b11101101001#11

/-- R7 `FLAG_MESSAGE`: bit 20 of the packer input, set for message words. -/
def FLAG_MESSAGE : Data21 := 0x100000#21

/-- R7, R46 `SYNC`: the first word of every batch. -/
def SYNC : Word := 0x7CD215D8#32

/-- R7, R46 `IDLE`: padding and the end-of-message marker. -/
def IDLE : Word := 0x7A89C197#32

/-- R7, R46 `PREAMBLE_WORD`. -/
def PREAMBLE_WORD : Word := 0xAAAAAAAA#32

/-- R7 `PREAMBLE_WORDS`. -/
def PREAMBLE_WORDS : Nat := 18

/-- R7 `BATCH_SIZE`: codewords of a batch, its SYNC not counted. -/
def BATCH_SIZE : Nat := 16

/-- R7 `FRAME_SIZE`: words of a frame. -/
def FRAME_SIZE : Nat := 2

/-- R7 `BATCH_WORDS` = `BATCH_SIZE + 1`. -/
def BATCH_WORDS : Nat := 17

/-- R7 `BITS_PER_WORD`: message bits of one message word. -/
def BITS_PER_WORD : Nat := 20

/-- R7 `TEXT_BITS_PER_CHAR`. -/
def TEXT_BITS_PER_CHAR : Nat := 7

/-- R7 `NUMERIC_BITS_PER_CHAR`. -/
def NUMERIC_BITS_PER_CHAR : Nat := 4

/-- R7 `BIT_INTERVAL`, R143: the sink holds each level for one `BIT_RATE`-th of a second (log 23). -/
def BIT_RATE : Nat := 1200

/-- R24 `ROM[0..9]`, R7 `MIRROR`: the digit table; no operation writes it (log 20). -/
def ROM : List Nibble := [0#4, 8#4, 4#4, 12#4, 2#4, 10#4, 6#4, 14#4, 1#4, 9#4]

/-- What a byte of MSG that nothing has placed reads as. DESIGN CHOICE, unsafe (log 12): R31 gives a value only to the bytes
the caller placed. -/
def UNLISTED_BYTE : Byte := 0#8

/-- R38, R8 `POLARITY`: the mode of the sink. In `normal` the line carries the complement of each bit. -/
inductive Polarity
  | normal
  | inverted
  deriving DecidableEq, Repr

/-- The open parameters of R8 that no request carries. `lenMax = none` is unbounded (log 6). -/
structure Params where
  lenMax   : Option Nat
  polarity : Polarity
  deriving DecidableEq, Repr

/-- The defaults R8 recommends. -/
def defaultParams : Params := ⟨none, .normal⟩

/-- The free value of `RES.value` where an operation leaves it unspecified (R13, R121, U12; log 2): no body, so nothing can be
proved of it; applied to `State.freeIndex`, so that two uses need not agree. -/
opaque freeValue : Nat → Word

/-- The free value of `RES.count` where an operation leaves it unspecified (R13, R121, U12; log 2). -/
opaque freeCount : Nat → Nat

/-- The free value of a word of OUT that neither the block nor the caller is known to have written: what the caller's storage
holds there (R28, R35, R134, U13; log 13). Applied to `State.outEpoch` and the index, so that one word reads alike until it is
written or its contents are lost. -/
opaque freeWord : Nat → Nat → Word

end Sys2Proof.Config
end

