-- ==== Sys2Proof/Syntax.lean ====
section
/-! DEFINITION. The syntax: one constructor of `Instr` per row of spec/opcode_table.json (30_encoding.md R58, R62), and the
two things a decoder is given: the ports of a request (10_state.md R12) and an output word. -/

namespace Sys2Proof

/-- The eleven operations of R58 with the operands each reads, and the five word formats of R62. An operand is a natural
number where R116 lists a value too wide for its port, so that such a request can be written and is refused (R118, log 8). The
word formats carry every field of the row's `encoding` (R43, R44). -/
inductive Instr
  /-- R63 -/
  | crc (data : Nat)
  /-- R66 -/
  | parity (word : Nat)
  /-- R73 -/
  | codeword (data : Nat)
  /-- R79 -/
  | digit (char : Nat)
  /-- R83 -/
  | text (offset length : Nat)
  /-- R84 -/
  | numeric (offset length : Nat)
  /-- R93 -/
  | transmit (numeric : Bool) (address function length : Nat)
  /-- R105 -/
  | addroff (address : Nat)
  /-- R106 -/
  | textlen (address length : Nat)
  /-- R107 -/
  | numlen (address length : Nat)
  /-- R61 -/
  | nop
  /-- R46: the word `0x7CD215D8` -/
  | sync
  /-- R46: the word `0x7A89C197` -/
  | idle
  /-- R46: the word `0xAAAAAAAA` -/
  | preambleWord
  /-- R43: flag 0, `address[20:3]`, function bits, crc field, parity bit -/
  | addressWord (address18 : BitVec 18) (function : BitVec 2) (crc : BitVec 10) (parity : Bool)
  /-- R44: flag 1, data field, crc field, parity bit -/
  | messageWord (data20 : Field20) (crc : BitVec 10) (parity : Bool)
  deriving DecidableEq, Repr

/-- The operand ports of a request as the caller drives them (R12, R57). The operation select is a 4-bit value; the operands
R116 can find too wide are natural numbers (log 8). -/
structure Ports where
  op       : BitVec 4
  numeric  : Bool
  address  : Nat
  function : Nat
  length   : Nat
  offset   : Nat
  data     : Nat
  word     : Nat
  char     : Nat
  deriving DecidableEq, Repr

/-- Ports with an operation selected and every operand 0. -/
def Ports.select (op : BitVec 4) : Ports := ⟨op, false, 0, 0, 0, 0, 0, 0, 0⟩

/-- What a decoder is given: a request's ports, for the block, or a word of OUT, for the sink (R62's two groups). -/
inductive Encoded
  | request (p : Ports)
  | word (w : Word)
  deriving DecidableEq, Repr

end Sys2Proof
end

