-- ==== Sys2Proof/WellFormed.lean ====
section
/-! DEFINITION. When an instruction is one that can be presented: every operand fits its port (10_state.md R12,
60_exceptions.md R118), and a word of the two wide formats is none of the three fixed words, whose rows take precedence
(30_encoding.md R62). -/

namespace Sys2Proof

/-- `n` fits a port of `w` wires. -/
abbrev fitsPort (w n : Nat) : Bool := decide (n < 2 ^ w)

/-- The fields an address word has at the bits of R41 and R43 are those of `w`. -/
def hasAddressFields (w : Word) (address18 : BitVec 18) (function : BitVec 2) (crc : BitVec 10) (parity : Bool) : Bool :=
  decide (w.extractLsb' 13 18 = address18 ∧ w.extractLsb' 11 2 = function ∧ w.extractLsb' 1 10 = crc ∧ w.getLsbD 0 = parity)

/-- The fields a message word has at the bits of R41 and R44 are those of `w`. -/
def hasMessageFields (w : Word) (data20 : Field20) (crc : BitVec 10) (parity : Bool) : Bool :=
  decide (w.extractLsb' 11 20 = data20 ∧ w.extractLsb' 1 10 = crc ∧ w.getLsbD 0 = parity)

/-- Every operand of the instruction fits its port, and a word format is not another row's word. -/
def Instr.wellFormed : Instr → Bool
  | .crc data => fitsPort 21 data
  | .parity word => fitsPort 32 word
  | .codeword data => fitsPort 21 data
  | .digit char => fitsPort 8 char
  | .text offset _ => fitsPort 4 offset
  | .numeric offset _ => fitsPort 4 offset
  | .transmit _ address function _ => fitsPort 21 address && fitsPort 2 function
  | .addroff address => fitsPort 21 address
  | .textlen address _ => fitsPort 21 address
  | .numlen address _ => fitsPort 21 address
  | .nop => true
  | .sync => true
  | .idle => true
  | .preambleWord => true
  | .addressWord a f c p => !hasAddressFields Config.SYNC a f c p && !hasAddressFields Config.IDLE a f c p
  | .messageWord d c p => !hasMessageFields Config.PREAMBLE_WORD d c p

end Sys2Proof
end

