-- ==== Sys2Proof/Decode.lean ====
section
/-! DEFINITION. Decoding, total, rejecting by name, and the encoder (30_encoding.md R58, R62; the rows of
spec/opcode_table.json). A request is selected by the 4-bit `REQ.op`, a word by its 32 bits. -/

namespace Sys2Proof

/-- What the decoder answers: an instruction, or the rejection R58 and R116 name. -/
inductive Decoded
  | instr (i : Instr)
  /-- `REQ.op` in 11..15 (R58, R116 `ReservedOp`) -/
  | reservedOp (op : BitVec 4)
  deriving DecidableEq, Repr

/-- R58: the operation a request selects, with the operands that operation reads; a port it does not read is ignored (R12). -/
def decodePorts (p : Ports) : Decoded :=
  match p.op.toNat with
  | 0 => .instr (.crc p.data)
  | 1 => .instr (.parity p.word)
  | 2 => .instr (.codeword p.data)
  | 3 => .instr (.digit p.char)
  | 4 => .instr (.text p.offset p.length)
  | 5 => .instr (.numeric p.offset p.length)
  | 6 => .instr (.transmit p.numeric p.address p.function p.length)
  | 7 => .instr (.addroff p.address)
  | 8 => .instr (.textlen p.address p.length)
  | 9 => .instr (.numlen p.address p.length)
  | 10 => .instr .nop
  | _ => .reservedOp p.op

/-- R62: a word classified by its bits alone, the rows of SYNC, IDLE and the preamble word first. Total: every word has a row.
The crc and parity fields are read, not checked (log 22). -/
def decodeWord (w : Word) : Instr :=
  if w = Config.SYNC then .sync
  else if w = Config.IDLE then .idle
  else if w = Config.PREAMBLE_WORD then .preambleWord
  else if w.getLsbD 31 then .messageWord (w.extractLsb' 11 20) (w.extractLsb' 1 10) (w.getLsbD 0)
  else .addressWord (w.extractLsb' 13 18) (w.extractLsb' 11 2) (w.extractLsb' 1 10) (w.getLsbD 0)

/-- The decoder, over both groups of the table. -/
def decode : Encoded → Decoded
  | .request p => decodePorts p
  | .word w => .instr (decodeWord w)

/-- The 32 bits of an address word, bit 31 first (R41, R43). -/
def addressBits (address18 : BitVec 18) (function : BitVec 2) (crc : BitVec 10) (parity : Bool) : Word :=
  (((0#1 ++ address18) ++ function) ++ crc).concat parity

/-- The 32 bits of a message word, bit 31 first (R41, R44). -/
def messageBits (data20 : Field20) (crc : BitVec 10) (parity : Bool) : Word :=
  ((1#1 ++ data20) ++ crc).concat parity

/-- The encoder, from the same table: the ports with the operation's number and operands, the others 0; or the word, bit 31
first. -/
def encode : Instr → Encoded
  | .crc data => .request { Ports.select 0 with data }
  | .parity word => .request { Ports.select 1 with word }
  | .codeword data => .request { Ports.select 2 with data }
  | .digit char => .request { Ports.select 3 with char }
  | .text offset length => .request { Ports.select 4 with offset, length }
  | .numeric offset length => .request { Ports.select 5 with offset, length }
  | .transmit numeric address function length => .request { Ports.select 6 with numeric, address, function, length }
  | .addroff address => .request { Ports.select 7 with address }
  | .textlen address length => .request { Ports.select 8 with address, length }
  | .numlen address length => .request { Ports.select 9 with address, length }
  | .nop => .request (Ports.select 10)
  | .sync => .word Config.SYNC
  | .idle => .word Config.IDLE
  | .preambleWord => .word Config.PREAMBLE_WORD
  | .addressWord a f c p => .word (addressBits a f c p)
  | .messageWord d c p => .word (messageBits d c p)

/-- The bits of a table row as the decoder takes them. A row of at most one byte is a request: bits 3..0 are `REQ.op`, the
table gives bits 7..4 and the operands no bits, and the operands are 0 (log 19). A longer row is a 32-bit word. -/
def layTableWord (nbits w : Nat) : Encoded :=
  if nbits ≤ 8 then .request (Ports.select (BitVec.ofNat 4 w)) else .word (BitVec.ofNat 32 w)

/-- The instruction the decoder reads from the bits `w` of a row of spec/opcode_table.json. -/
def decodeTableWord (nbits w : Nat) : Option Instr :=
  match decode (layTableWord nbits w) with
  | .instr i => some i
  | .reservedOp _ => none

end Sys2Proof
end

