-- ==== Sys2Proof/Machine/State.lean ====
section
/-! DEFINITION. The state of the machine, plain data: the five classes of 10_state.md R11 less the hardwired ones (log 20), the
caller's memories (20_memory.md R29), the open parameters (00_scope.md R8), the sink at the boundary (R38), and three fields of
the model's own (`inbox`, `freeIndex`, `outEpoch`). -/

namespace Sys2Proof.Machine

/-- R12: the request registers, at the widths of their ports. -/
structure RequestRegs where
  op       : BitVec 4
  numeric  : Bool
  address  : BitVec 21
  function : BitVec 2
  length   : Nat
  offset   : BitVec 4
  data     : Data21
  word     : Word
  char     : Byte
  deriving DecidableEq, Repr

/-- R13: the result registers. -/
structure ResultRegs where
  status : BitVec 2
  code   : BitVec 4
  value  : Word
  count  : Nat
  deriving DecidableEq, Repr

/-- R14: the Checksum Unit's `MSGREG`, `DEN`, `COL`. -/
structure ChecksumRegs where
  msgreg : BitVec 31
  den    : BitVec 31
  col    : Nat
  deriving DecidableEq, Repr

/-- R15: the Codeword Packer's `FULL`, `PBIT`. -/
structure PackerRegs where
  full : BitVec 31
  pbit : Bool
  deriving DecidableEq, Repr

/-- R16 to R19: the Character Encoders' `CIDX`, `CHAR`, `NIB`, `BIDX`, `BUF`, `NBITS`, `WPOS`, `WCOUNT`. -/
structure EncoderRegs where
  cidx   : Nat
  char   : Byte
  nib    : Nibble
  bidx   : Nat
  buf    : Field20
  nbits  : Nat
  wpos   : Nat
  wcount : Nat
  deriving DecidableEq, Repr

/-- R20: the values of `PHASE`, one per step of the Frame Assembler and the terminal one. -/
inductive Phase
  | s1Preamble
  | s2Sync
  | s3Prefix
  | s4Address
  | s5Message
  | s6End
  | s7Pad
  | done
  deriving DecidableEq, Repr

/-- R20, R21: the Frame Assembler's `PHASE`, `OUTPTR`, `START`, `PREFIX`, `K`. -/
structure AssemblerRegs where
  phase     : Phase
  outptr    : Nat
  start     : Nat
  prefixLen : Nat
  k         : Nat
  deriving DecidableEq, Repr

/-- R22: the Length Calculator's `NW`. -/
structure CalculatorRegs where
  nw : Nat
  deriving DecidableEq, Repr

/-- R29 `MSG`: (address, byte) pairs, addresses strictly rising, no entry equal to what an unlisted byte reads as. -/
abbrev Memory := List Host.Cell

/-- R29 `OUT`: (index, word) pairs, indices strictly rising. Indexed by word and never taken apart into bytes (R33, log 14); an
unlisted word holds a free value (`State.outWord`, log 13). -/
abbrev OutSpace := List (Nat × Word)

/-- R38: the bit-serial sink at the boundary: the index of the next word it takes, how many words it was handed, and the
levels the line has carried, oldest first (log 11). -/
structure SinkState where
  index : Nat
  count : Nat
  line  : List Bool
  deriving DecidableEq, Repr

/-- What the caller does to the machine (log 5). -/
inductive Event
  /-- R57: presents a request: the ports, the message bytes, the output capacity (`none`: unbounded). -/
  | request (ports : Ports) (message : List Byte) (capacity : Option Nat)
  /-- R129: resets the block between two operations. -/
  | reset
  /-- R129: resets the block in the middle of an operation whose request had been presented. -/
  | resetDuring (ports : Ports) (message : List Byte) (capacity : Option Nat)
  /-- R29, R35: the caller leaves words in its own OUT, from index `first` on. -/
  | leaveWords (first : Nat) (words : List Word)
  /-- R38: hands the sink the first `n` words of OUT. -/
  | sinkStart (n : Nat)
  /-- R38: the sink takes the next word it was handed. -/
  | sinkWord
  deriving DecidableEq, Repr

/-- The whole state. -/
structure State where
  req         : RequestRegs
  res         : ResultRegs
  checksum    : ChecksumRegs
  packer      : PackerRegs
  encoder     : EncoderRegs
  assembler   : AssemblerRegs
  calculator  : CalculatorRegs
  msg         : Memory
  out         : OutSpace
  outCapacity : Option Nat
  params      : Config.Params
  sink        : SinkState
  inbox       : List Event
  freeIndex   : Nat
  outEpoch    : Nat
  deriving DecidableEq, Repr

/-- Why the machine stops. No rule of the spec stops it and no step does, so there is no constructor: a request that ends
`FAULT` or `REFUSED` is a next state (R121, R122, log 9). -/
inductive Fault
  deriving DecidableEq, Repr

/-- No meaning for an instruction. -/
inductive Refusal
  /-- Raised by an arm of `exec` whose instruction has no meaning yet; no arm is one. Safe. -/
  | notModelled (mnemonic : String)
  deriving DecidableEq, Repr

/-- The machine right after power-on. R28 and R130 give no register a value: each is 0, `PHASE` its first value (DESIGN CHOICE,
log 1). The parameters are R8's defaults, the output capacity R8's default, nothing is listed in MSG and OUT, nothing is pending. -/
def State.reset : State where
  req := ⟨0#4, false, 0#21, 0#2, 0, 0#4, 0#21, 0#32, 0#8⟩
  res := ⟨0#2, 0#4, 0#32, 0⟩
  checksum := ⟨0#31, 0#31, 0⟩
  packer := ⟨0#31, false⟩
  encoder := ⟨0, 0#8, 0#4, 0, 0#20, 0, 0, 0⟩
  assembler := ⟨.s1Preamble, 0, 0, 0, 0⟩
  calculator := ⟨0⟩
  msg := []
  out := []
  outCapacity := none
  params := Config.defaultParams
  sink := ⟨0, 0, []⟩
  inbox := []
  freeIndex := 0
  outEpoch := 0

end Sys2Proof.Machine
end

