-- ==== Sys2Proof/Machine/Ops.lean ====
section
/-! DEFINITION. The named operations over registers and memory: the setters of each part of the state; sparse memories and the
access primitives of 20_memory.md R30, R31, R32; the outcomes of an operation (60_exceptions.md R114 to R121), among them
the rejection that stands in the place of an exception entry; the admission checks of R120; reset (70_reset_and_hazards.md R129). -/

namespace Sys2Proof.Machine

/-! Setters, one per part of the state. -/

/-- The request registers become `r`. -/
def State.setReq (s : State) (r : RequestRegs) : State := { s with req := r }
/-- The result registers become `r`. -/
def State.setRes (s : State) (r : ResultRegs) : State := { s with res := r }
/-- The Checksum Unit's registers become `r`. -/
def State.setChecksum (s : State) (r : ChecksumRegs) : State := { s with checksum := r }
/-- The Codeword Packer's registers become `r`. -/
def State.setPacker (s : State) (r : PackerRegs) : State := { s with packer := r }
/-- The Character Encoders' registers become `r`. -/
def State.setEncoder (s : State) (r : EncoderRegs) : State := { s with encoder := r }
/-- The Frame Assembler's registers become `r`. -/
def State.setAssembler (s : State) (r : AssemblerRegs) : State := { s with assembler := r }
/-- The Length Calculator's register becomes `r`. -/
def State.setCalculator (s : State) (r : CalculatorRegs) : State := { s with calculator := r }
/-- MSG becomes `m`. -/
def State.setMsg (s : State) (m : Memory) : State := { s with msg := m }
/-- OUT becomes `o`. -/
def State.setOut (s : State) (o : OutSpace) : State := { s with out := o }
/-- The output capacity becomes `c`. -/
def State.setOutCapacity (s : State) (c : Option Nat) : State := { s with outCapacity := c }
/-- The sink becomes `k`. -/
def State.setSink (s : State) (k : SinkState) : State := { s with sink := k }
/-- The caller's pending events become `l`. -/
def State.setInbox (s : State) (l : List Event) : State := { s with inbox := l }
/-- The next free value's index becomes `n`. -/
def State.setFreeIndex (s : State) (n : Nat) : State := { s with freeIndex := n }
/-- The contents of OUT's unlisted words become those of number `n`. -/
def State.setOutEpoch (s : State) (n : Nat) : State := { s with outEpoch := n }

/-! Sparse spaces: (index, content) pairs, indices strictly rising. -/

/-- The content listed at an index, if any. -/
def cellAt {α : Type} (k : Nat) : List (Nat × α) → Option α
  | [] => none
  | (a, x) :: t => if a = k then some x else cellAt k t

/-- The pairs with `v` at `k`, in rising order. -/
def setCell {α : Type} (k : Nat) (v : α) : List (Nat × α) → List (Nat × α)
  | [] => [(k, v)]
  | (a, x) :: t => if k < a then (k, v) :: (a, x) :: t else if k = a then (k, v) :: t else (a, x) :: setCell k v t

/-- The pairs without one at `k`. -/
def dropCell {α : Type} (k : Nat) : List (Nat × α) → List (Nat × α)
  | [] => []
  | (a, x) :: t => if a = k then dropCell k t else (a, x) :: dropCell k t

/-- Every index is above `low` and the indices rise strictly. -/
def risingFrom {α : Type} (low : Nat) : List (Nat × α) → Bool
  | [] => true
  | (a, _) :: t => decide (low ≤ a) && risingFrom (a + 1) t

/-- MSG's canonical form: rising addresses, and no entry equal to what an unlisted byte reads as. -/
def Memory.wf (m : Memory) : Bool := risingFrom 0 m && m.all fun c => decide (c.2 ≠ Config.UNLISTED_BYTE)

/-- OUT's canonical form: rising indices. -/
def OutSpace.wf (o : OutSpace) : Bool := risingFrom 0 o

/-- R31 `MSG[i]`, one byte; an unlisted one reads `Config.UNLISTED_BYTE` (log 12). -/
def Memory.read (m : Memory) (i : Nat) : Byte := (cellAt i m).getD Config.UNLISTED_BYTE

/-- The caller's write of one byte of MSG, keeping the canonical form. -/
def Memory.write (m : Memory) (i : Nat) (b : Byte) : Memory :=
  if b = Config.UNLISTED_BYTE then dropCell i m else setCell i b m

/-- The caller's placing of bytes from an address on (R133 step 4). -/
def Memory.place (m : Memory) (i : Nat) : List Byte → Memory
  | [] => m
  | b :: bs => Memory.place (Memory.write m i b) (i + 1) bs

/-- The word known to be in OUT at an index, `none` where none is (log 13). -/
def OutSpace.read (o : OutSpace) (k : Nat) : Option Word := cellAt k o

/-- R30 `OUT[k] <- w`. -/
def OutSpace.write (o : OutSpace) (k : Nat) (w : Word) : OutSpace := setCell k w o

/-- Words written in a row, from an index on. -/
def OutSpace.place (o : OutSpace) (k : Nat) : List Word → OutSpace
  | [] => o
  | w :: ws => OutSpace.place (OutSpace.write o k w) (k + 1) ws

/-- R35: what a reader of `OUT[k]` sees: the word written there, or, before one is, whatever the storage holds (log 13). -/
def State.outWord (s : State) (k : Nat) : Word := (OutSpace.read s.out k).getD (Config.freeWord s.outEpoch k)

/-- R30 `Emit(w)`: `OUT[OUTPTR] <- w; OUTPTR <- OUTPTR + 1`. -/
def emit (w : Word) (s : State) : State :=
  (s.setOut (OutSpace.write s.out s.assembler.outptr w)).setAssembler
    { s.assembler with outptr := s.assembler.outptr + 1 }

/-- R32 `ROM[d]`, d in 0..9 (R24). No other index is formed. -/
def romRead (d : Nat) : Nibble := Config.ROM.getD d 0#4

/-- Loops of the pseudocode: `f` done `n` times (R9). -/
def loop (n : Nat) (f : State → State) (s : State) : State :=
  match n with
  | 0 => s
  | n + 1 => loop n f (f s)

/-! Outcomes. -/

/-- R114: the values of `RES.status`. -/
def statusOK : BitVec 2 := 0#2
/-- R114 -/
def statusRefused : BitVec 2 := 1#2
/-- R114 -/
def statusFault : BitVec 2 := 2#2

/-- R115 and R116: why a request is not carried out. -/
inductive Rejection
  /-- R116 reason 1 -/
  | reservedOp
  /-- R116 reason 2 -/
  | operandTooWide
  /-- R116 reason 3 -/
  | lengthTooLarge
  /-- R115 fault 1 -/
  | outputOverrun
  deriving DecidableEq, Repr

/-- R114 to R116: the status a rejection reports. -/
def rejectStatus : Rejection → BitVec 2
  | .reservedOp => statusRefused
  | .operandTooWide => statusRefused
  | .lengthTooLarge => statusRefused
  | .outputOverrun => statusFault

/-- R115, R116: the code a rejection reports. -/
def rejectCode : Rejection → BitVec 4
  | .reservedOp => 1#4
  | .operandTooWide => 2#4
  | .lengthTooLarge => 3#4
  | .outputOverrun => 1#4

/-- R121, the block's counterpart of taking an exception: `RES.status` and `RES.code` are written, `RES.value` and `RES.count`
are left unspecified (free values, log 2), nothing else changes, and the block is ready for the next request (log 9). There is
no return operation beside it: nothing was saved (R122). -/
def reject (r : Rejection) (s : State) : State :=
  (s.setRes ⟨rejectStatus r, rejectCode r, Config.freeValue s.freeIndex, Config.freeCount s.freeIndex⟩).setFreeIndex
    (s.freeIndex + 1)

/-- R13: an operation that returns a value ends `OK`; `RES.count` is unspecified (U12, log 2). -/
def finishValue (v : Word) (s : State) : State :=
  (s.setRes ⟨statusOK, 0#4, v, Config.freeCount s.freeIndex⟩).setFreeIndex (s.freeIndex + 1)

/-- R13: an operation that returns a count ends `OK`; `RES.value` is unspecified (U12, log 2). -/
def finishCount (n : Nat) (s : State) : State :=
  (s.setRes ⟨statusOK, 0#4, Config.freeValue s.freeIndex, n⟩).setFreeIndex (s.freeIndex + 1)

/-- R61: an operation that returns nothing ends `OK`; both are unspecified (log 2). -/
def finishNone (s : State) : State :=
  (s.setRes ⟨statusOK, 0#4, Config.freeValue s.freeIndex, Config.freeCount s.freeIndex⟩).setFreeIndex (s.freeIndex + 1)

/-- `n` is above a bound; no bound is never exceeded (R8). -/
def exceeds (n : Nat) : Option Nat → Bool
  | none => false
  | some m => decide (m < n)

/-- R120: the checks of a decoded request in their order, all before any word is written: the operands fit their ports (R118);
no length or count is above `LEN_MAX` (R116, log 7); the words to write fit `OUT_CAPACITY` (R117). The first that applies
decides. An operation without counts or words gives `[]` and `0`. -/
def checkRequest (fits : Bool) (counts : List Nat) (words : Nat) (s : State) : Option Rejection :=
  if !fits then some .operandTooWide
  else if counts.any (fun n => exceeds n s.params.lenMax) then some .lengthTooLarge
  else if exceeds words s.outCapacity then some .outputOverrun
  else none

/-- R114: a rejected request is rejected; an admitted one runs to its end. Either way the machine goes on. -/
def complete (verdict : Option Rejection) (run : State → State) (s : State) : Host.Outcome State Fault Refusal :=
  match verdict with
  | some r => .next (reject r s)
  | none => .next (run s)

/-! The caller's side. -/

/-- R57, R133: a request's message bytes are placed in MSG from index 0 on, and its output capacity is the storage the operation
may use (log 6, log 12). DESIGN CHOICE (log 24): its OUT is the one space of State, with the words of earlier requests still in it;
R36 and R60 leave it open whether it is the same storage. -/
def presentRequest (message : List Byte) (capacity : Option Nat) (s : State) : State :=
  (s.setMsg (Memory.place s.msg 0 message)).setOutCapacity capacity

/-- R129, R130: a reset of the block. Its registers take their power-on values (log 1, log 18); the caller's memories, the
parameters, the sink and the pending events are not the block's. -/
def resetBlock (s : State) : State :=
  { s with
    req := State.reset.req, res := State.reset.res, checksum := State.reset.checksum, packer := State.reset.packer,
    encoder := State.reset.encoder, assembler := State.reset.assembler, calculator := State.reset.calculator }

/-- R29, R35: the caller leaves words in OUT, which is its own storage, between operations (R39 c; log 13). -/
def leaveInOut (first : Nat) (words : List Word) (s : State) : State := s.setOut (OutSpace.place s.out first words)

/-- R129, U13: a reset in the middle of an operation: no result, and every word of OUT may hold any value: nothing is listed, and
the unlisted words hold new free values (log 18). -/
def resetMidOperation (s : State) : State := ((resetBlock s).setOut []).setOutEpoch (s.outEpoch + 1)

end Sys2Proof.Machine
end

