-- ==== Sys2Proof/Machine/Operands.lean ====
section
/-! DEFINITION. How each derived operand is assembled from the request (30_encoding.md R42 to R45, R54), and the sizing
formulas the admission checks use (42_character_encoders.md R85, 44_length_calculator.md R108). All unsigned, nothing wraps. -/

namespace Sys2Proof.Machine

/-- R9 `ceil_div(a, b)`. -/
def ceilDiv (a b : Nat) : Nat := (a + b - 1) / b

/-- R9 `roundup(a, b)`: the least multiple of `b` not below `a`. -/
def roundUp (a b : Nat) : Nat := ceilDiv a b * b

/-- R54 bits per character: 4 in numeric mode, 7 in text mode. -/
def bitsPerChar (numeric : Bool) : Nat := if numeric then Config.NUMERIC_BITS_PER_CHAR else Config.TEXT_BITS_PER_CHAR

/-- R54 `addressOffset(address)`: `(address & 0x7) * FRAME_SIZE`, the prefix length. -/
def addressOffset (address : BitVec 21) : Nat := (address &&& 7#21).toNat * Config.FRAME_SIZE

/-- R43 the address word's data: `((address >> 3) << 2) | functionBits`, flag 0. -/
def addressData (address : BitVec 21) (function : BitVec 2) : Data21 :=
  ((address >>> 3) <<< 2) ||| function.setWidth 21

/-- R44 the message word's data: `FLAG_MESSAGE | BUF`. -/
def messageData (field : Field20) : Data21 := Config.FLAG_MESSAGE ||| field.setWidth 21

/-- R54 the message word count `ceil_div(length * bitsPerChar, 20)`. -/
def messageWords (numeric : Bool) (length : Nat) : Nat := ceilDiv (length * bitsPerChar numeric) Config.BITS_PER_WORD

/-- R85 the words a Character Encoder writes from word position `offset`: `m + (o + m) div 16`. -/
def encoderWords (numeric : Bool) (offset length : Nat) : Nat :=
  messageWords numeric length + (offset + messageWords numeric length) / Config.BATCH_SIZE

/-- R9 `rev4(n)`: `{n[0], n[1], n[2], n[3]}`. -/
def rev4 (n : Nibble) : Nibble :=
  BitVec.ofBool (n.getLsbD 0) ++ BitVec.ofBool (n.getLsbD 1) ++ BitVec.ofBool (n.getLsbD 2) ++ BitVec.ofBool (n.getLsbD 3)

end Sys2Proof.Machine
end

