-- ==== Sys2Proof/Machine/Flags.lean ====
section
/-! DEFINITION. The block has no flags and no condition codes (10_state.md R25): no operation sets a carry, zero, overflow or
error flag. The only status is the pair `RES.status`, `RES.code` (R13, R114), written once by every operation and read by
none; this file says which pairs are legal. The pairs themselves are written by `finishValue`, `finishCount`, `finishNone` and
`reject` of Ops.lean. -/

namespace Sys2Proof.Machine

/-- R13, R114 to R116: code 0 when `OK`; a refusal's code is 1, 2 or 3; the one fault's code is 1. -/
def ResultRegs.legal (r : ResultRegs) : Bool :=
  (r.status == statusOK && r.code == 0#4) ||
  (r.status == statusRefused && (r.code == 1#4 || r.code == 2#4 || r.code == 3#4)) ||
  (r.status == statusFault && r.code == 1#4)

end Sys2Proof.Machine
end

