-- ==== Sys2Proof/Machine/Checksum.lean ====
section
/-! DEFINITION. The Checksum Unit (40_checksum_unit.md): CRC by the column procedure of R63, PARITY by R66. -/

namespace Sys2Proof.Machine

/-- R63: the registers before the first column: `MSGREG <- {m, 0b0000000000}`, `DEN <- GEN << 20`, `COL` 0. -/
def crcStart (m : Data21) : ChecksumRegs := ⟨m ++ 0#10, Config.GEN.setWidth 31 <<< 20, 0⟩

/-- R63: one column: test bit `30 - COL`, subtract by XOR, shift the generator right. -/
def crcColumn (r : ChecksumRegs) : ChecksumRegs :=
  ⟨if r.msgreg.getLsbD (30 - r.col) then r.msgreg ^^^ r.den else r.msgreg, r.den >>> 1, r.col + 1⟩

/-- R63: `n` columns. -/
def crcColumns (n : Nat) (r : ChecksumRegs) : ChecksumRegs :=
  match n with
  | 0 => r
  | n + 1 => crcColumns n (crcColumn r)

/-- R63: the registers after the 21 columns. -/
def crcRegs (m : Data21) : ChecksumRegs := crcColumns 21 (crcStart m)

/-- R63 `CRC(m)`: `MSGREG[9:0]` after the last column. -/
def crcOf (m : Data21) : BitVec 10 := (crcRegs m).msgreg.extractLsb' 0 10

/-- The XOR of the `n` low bits of a word. -/
def xorBits (w : Word) : Nat → Bool
  | 0 => false
  | n + 1 => w.getLsbD n ^^ xorBits w n

/-- R66 `PARITY(w)`: the XOR of all 32 bits. -/
def parityOf (w : Word) : Bool := xorBits w 32

/-- The Checksum Unit divides `m`; its registers hold what the procedure last wrote. -/
def runCrc (m : Data21) (s : State) : State := s.setChecksum (crcRegs m)

/-- R63, R12: CRC once admitted: the operand is in its port, the unit divides it. -/
def performCrc (data : Nat) (s : State) : State :=
  let s := s.setReq { s.req with op := 0#4, data := BitVec.ofNat 21 data }
  finishValue ((crcOf s.req.data).setWidth 32) (runCrc s.req.data s)

/-- R63 `CRC`. -/
def execCrc (data : Nat) (s : State) : Host.Outcome State Fault Refusal :=
  complete (checkRequest (fitsPort 21 data) [] 0 s) (performCrc data) s

/-- R66, R12: PARITY once admitted. -/
def performParity (word : Nat) (s : State) : State :=
  let s := s.setReq { s.req with op := 1#4, word := BitVec.ofNat 32 word }
  finishValue ((BitVec.ofBool (parityOf s.req.word)).setWidth 32) s

/-- R66 `PARITY`. -/
def execParity (word : Nat) (s : State) : Host.Outcome State Fault Refusal :=
  complete (checkRequest (fitsPort 32 word) [] 0 s) (performParity word) s

end Sys2Proof.Machine
end

