-- ==== Sys2Proof/Machine/Packer.lean ====
section
/-! DEFINITION. The Codeword Packer (41_codeword_packer.md): CODEWORD by R73. -/

namespace Sys2Proof.Machine

/-- R73 `FULL`: `{d, CRC(d)}`. -/
def packFull (d : Data21) : BitVec 31 := d ++ crcOf d

/-- R73 `PBIT`: `PARITY(zext_32(FULL))`. -/
def packParity (d : Data21) : Bool := parityOf ((packFull d).setWidth 32)

/-- R73 `CODEWORD(d)`: `{FULL, PBIT}`. -/
def codewordOf (d : Data21) : Word := (packFull d).concat (packParity d)

/-- The packer packs `d`: it runs the Checksum Unit's CRC once and its parity once (00_scope.md R3), and the registers of both
hold what the procedure last wrote (log 17). -/
def runPacker (d : Data21) (s : State) : State := (runCrc d s).setPacker ⟨packFull d, packParity d⟩

/-- R73, R12: CODEWORD once admitted. -/
def performCodeword (data : Nat) (s : State) : State :=
  let s := s.setReq { s.req with op := 2#4, data := BitVec.ofNat 21 data }
  finishValue (codewordOf s.req.data) (runPacker s.req.data s)

/-- R73 `CODEWORD`. -/
def execCodeword (data : Nat) (s : State) : Host.Outcome State Fault Refusal :=
  complete (checkRequest (fitsPort 21 data) [] 0 s) (performCodeword data) s

end Sys2Proof.Machine
end

