-- ==== Sys2Proof/Machine/Encoders.lean ====
section
/-! DEFINITION. The Character Encoders (42_character_encoders.md): DIGIT (R79), the shared word emitter (R80 to R82), TEXT
(R83) and NUMERIC (R84). -/

namespace Sys2Proof.Machine

/-- R79, R48 `DIGIT(c)`, on the whole 8-bit value. The byte values are the ASCII codes R48 gives (log 21). -/
def digitOf (c : Byte) : Nibble :=
  if 0x30#8 ≤ c ∧ c ≤ 0x39#8 then romRead (c - 0x30#8).toNat
  else if c = 0x20#8 then 3#4
  else if c = 0x55#8 ∨ c = 0x75#8 then 13#4
  else if c = 0x2D#8 ∨ c = 0x5F#8 then 11#4
  else if c = 0x28#8 ∨ c = 0x5B#8 then 15#4
  else if c = 0x29#8 ∨ c = 0x5D#8 then 7#4
  else 5#4

/-- R79, R12: DIGIT once admitted. -/
def performDigit (char : Nat) (s : State) : State :=
  let s := s.setReq { s.req with op := 3#4, char := BitVec.ofNat 8 char }
  finishValue ((digitOf s.req.char).setWidth 32) s

/-- R79 `DIGIT`. -/
def execDigit (char : Nat) (s : State) : Host.Outcome State Fault Refusal :=
  complete (checkRequest (fitsPort 8 char) [] 0 s) (performDigit char) s

/-- R81, the bookkeeping after an emitted message word: count it, advance the position, and when the batch is full write a SYNC,
count it and start the next batch. -/
def advancePosition (s : State) : State :=
  let s := s.setEncoder { s.encoder with wcount := s.encoder.wcount + 1, wpos := s.encoder.wpos + 1 }
  if s.encoder.wpos = Config.BATCH_SIZE then
    let s := emit Config.SYNC s
    s.setEncoder { s.encoder with wcount := s.encoder.wcount + 1, wpos := 0 }
  else s

/-- R81 `EmitMsgWord(f)`. -/
def emitMsgWord (f : Field20) (s : State) : State :=
  advancePosition (emit (codewordOf (messageData f)) (runPacker (messageData f) s))

/-- R80 `PushBit(b)`: `BUF <- (BUF << 1) | b`; a full buffer is emitted. -/
def pushBit (b : Bool) (s : State) : State :=
  let s := s.setEncoder { s.encoder with buf := s.encoder.buf.shiftConcat b, nbits := s.encoder.nbits + 1 }
  if s.encoder.nbits = Config.BITS_PER_WORD then
    let s := emitMsgWord s.encoder.buf s
    s.setEncoder { s.encoder with buf := 0#20, nbits := 0 }
  else s

/-- R82 `Flush()`: a partly filled buffer is shifted to the top and emitted (C2; log 16). -/
def flush (s : State) : State :=
  if 0 < s.encoder.nbits then emitMsgWord (s.encoder.buf <<< (Config.BITS_PER_WORD - s.encoder.nbits)) s else s

/-- One round of the inner loops of R83 and R84: `BIDX <- j; PushBit(v[j])`. -/
def pushBitOf {w : Nat} (v : BitVec w) (j : Nat) (s : State) : State :=
  pushBit (v.getLsbD j) (s.setEncoder { s.encoder with bidx := j })

/-- The bits `j, j + 1, …` of `v`, `n` of them, pushed in that order. -/
def pushBits {w : Nat} (v : BitVec w) (j n : Nat) (s : State) : State :=
  match n with
  | 0 => s
  | n + 1 => pushBits v (j + 1) n (pushBitOf v j s)

/-- R31, R83, R84: `CHAR <- MSG[CIDX]`. -/
def fetchChar (s : State) : State :=
  s.setEncoder { s.encoder with char := Memory.read s.msg s.encoder.cidx }

/-- `CIDX` moves to the next byte (R16). -/
def nextChar (s : State) : State := s.setEncoder { s.encoder with cidx := s.encoder.cidx + 1 }

/-- R83, one character of text mode: bits 0 to 6 of the byte. -/
def textChar (s : State) : State :=
  let s := fetchChar s
  nextChar (pushBits s.encoder.char 0 Config.TEXT_BITS_PER_CHAR s)

/-- R84, one character of numeric mode: `NIB <- rev4(DIGIT(CHAR))`, bits 0 to 3 of it. The double transformation is kept as it
is (R88). -/
def numericChar (s : State) : State :=
  let s := fetchChar s
  let s := s.setEncoder { s.encoder with nib := digitOf s.encoder.char }
  let s := s.setEncoder { s.encoder with nib := rev4 s.encoder.nib }
  nextChar (pushBits s.encoder.nib 0 Config.NUMERIC_BITS_PER_CHAR s)

/-- R83, R84, R131: the registers a Character Encoder initialises, its position at the offset. -/
def startEncoder (offset : Nat) (s : State) : State :=
  s.setEncoder { s.encoder with cidx := 0, bidx := 0, buf := 0#20, nbits := 0, wcount := 0, wpos := offset }

/-- R83 without its cursor reset and result: the text-mode Character Encoder, as an operation or as step 5 of TRANSMIT. -/
def runText (offset : Nat) (s : State) : State := flush (loop s.req.length textChar (startEncoder offset s))

/-- R84 likewise: the numeric-mode Character Encoder. -/
def runNumeric (offset : Nat) (s : State) : State := flush (loop s.req.length numericChar (startEncoder offset s))

/-- R26, R83, R84, R94: `OUTPTR <- 0`. -/
def clearOutptr (s : State) : State := s.setAssembler { s.assembler with outptr := 0 }

/-- R83, R12: TEXT once admitted. -/
def performText (offset length : Nat) (s : State) : State :=
  let s := s.setReq { s.req with op := 4#4, offset := BitVec.ofNat 4 offset, length := length }
  let s := runText s.req.offset.toNat (clearOutptr s)
  finishCount s.encoder.wcount s

/-- R83 `TEXT`. -/
def execText (offset length : Nat) (s : State) : Host.Outcome State Fault Refusal :=
  complete (checkRequest (fitsPort 4 offset) [length, encoderWords false offset length] (encoderWords false offset length) s)
    (performText offset length) s

/-- R84, R12: NUMERIC once admitted. -/
def performNumeric (offset length : Nat) (s : State) : State :=
  let s := s.setReq { s.req with op := 5#4, offset := BitVec.ofNat 4 offset, length := length }
  let s := runNumeric s.req.offset.toNat (clearOutptr s)
  finishCount s.encoder.wcount s

/-- R84 `NUMERIC`. -/
def execNumeric (offset length : Nat) (s : State) : Host.Outcome State Fault Refusal :=
  complete (checkRequest (fitsPort 4 offset) [length, encoderWords true offset length] (encoderWords true offset length) s)
    (performNumeric offset length) s

end Sys2Proof.Machine
end

