-- ==== Sys2Proof/Machine/Length.lean ====
section
/-! DEFINITION. The Length Calculator (44_length_calculator.md): ADDROFF (R105), TEXTLEN (R106), NUMLEN (R107), by the shared
formula of R108. -/

namespace Sys2Proof.Machine

/-- R108: the codewords through the end marker: prefix, address word, message words, end-of-message IDLE. -/
def codewordCount (numeric : Bool) (address : BitVec 21) (length : Nat) : Nat :=
  addressOffset address + 1 + messageWords numeric length + 1

/-- R108: the whole formula: rounded up to whole batches, one SYNC a batch, the preamble. `LEN(numeric, a, L)` of R94. -/
def transmissionWords (numeric : Bool) (address : BitVec 21) (length : Nat) : Nat :=
  let padded := roundUp (codewordCount numeric address length) Config.BATCH_SIZE
  padded + padded / Config.BATCH_SIZE + Config.PREAMBLE_WORDS

/-- One assignment to `NW`. -/
def setNW (n : Nat) (s : State) : State := s.setCalculator ⟨n⟩

/-- R108, the seven assignments to `NW` in order. -/
def runCalculator (numeric : Bool) (s : State) : State :=
  let s := setNW (addressOffset s.req.address) s
  let s := setNW (s.calculator.nw + 1) s
  let s := setNW (s.calculator.nw + ceilDiv (s.req.length * bitsPerChar numeric) Config.BITS_PER_WORD) s
  let s := setNW (s.calculator.nw + 1) s
  let s := setNW (roundUp s.calculator.nw Config.BATCH_SIZE) s
  let s := setNW (s.calculator.nw + s.calculator.nw / Config.BATCH_SIZE) s
  setNW (s.calculator.nw + Config.PREAMBLE_WORDS) s

/-- R105, R12: ADDROFF once admitted. -/
def performAddroff (address : Nat) (s : State) : State :=
  let s := s.setReq { s.req with op := 7#4, address := BitVec.ofNat 21 address }
  finishCount (addressOffset s.req.address) s

/-- R105 `ADDROFF`. -/
def execAddroff (address : Nat) (s : State) : Host.Outcome State Fault Refusal :=
  complete (checkRequest (fitsPort 21 address) [] 0 s) (performAddroff address) s

/-- R106, R12: TEXTLEN once admitted. -/
def performTextlen (address length : Nat) (s : State) : State :=
  let s := s.setReq { s.req with op := 8#4, address := BitVec.ofNat 21 address, length := length }
  let s := runCalculator false s
  finishCount s.calculator.nw s

/-- R106 `TEXTLEN`. -/
def execTextlen (address length : Nat) (s : State) : Host.Outcome State Fault Refusal :=
  complete (checkRequest (fitsPort 21 address) [length, transmissionWords false (BitVec.ofNat 21 address) length] 0 s)
    (performTextlen address length) s

/-- R107, R12: NUMLEN once admitted. -/
def performNumlen (address length : Nat) (s : State) : State :=
  let s := s.setReq { s.req with op := 9#4, address := BitVec.ofNat 21 address, length := length }
  let s := runCalculator true s
  finishCount s.calculator.nw s

/-- R107 `NUMLEN`. -/
def execNumlen (address length : Nat) (s : State) : Host.Outcome State Fault Refusal :=
  complete (checkRequest (fitsPort 21 address) [length, transmissionWords true (BitVec.ofNat 21 address) length] 0 s)
    (performNumlen address length) s

end Sys2Proof.Machine
end

