-- ==== Sys2Proof/Machine/Assembler.lean ====
section
/-! DEFINITION. The Frame Assembler (43_frame_assembler.md): TRANSMIT (R93) by the pseudocode of R94, its seven steps
(R95 to R101) sequenced by `PHASE` (R104). -/

namespace Sys2Proof.Machine

/-- `PHASE <- p`. -/
def setPhase (p : Phase) (s : State) : State := s.setAssembler { s.assembler with phase := p }

/-- One round of the preamble, prefix and padding loops: `K` counts it, the word is emitted (R21). -/
def emitCounted (w : Word) (s : State) : State :=
  emit w (s.setAssembler { s.assembler with k := s.assembler.k + 1 })

/-- R94 `for K in 1..n: Emit(w)`; `K` starts at 0 (R28). -/
def emitRun (n : Nat) (w : Word) (s : State) : State :=
  loop n (emitCounted w) (s.setAssembler { s.assembler with k := 0 })

/-- R95, step 1: the preamble. -/
def preambleStep (s : State) : State := emitRun Config.PREAMBLE_WORDS Config.PREAMBLE_WORD s

/-- R96, step 2: the first SYNC; `START` is where it stands. -/
def syncStep (s : State) : State :=
  emit Config.SYNC (s.setAssembler { s.assembler with start := s.assembler.outptr })

/-- R97, step 3: the prefix. -/
def prefixStep (s : State) : State :=
  let s := s.setAssembler { s.assembler with prefixLen := addressOffset s.req.address }
  emitRun s.assembler.prefixLen Config.IDLE s

/-- R98, step 4: the address word, packed by the Codeword Packer (R3). -/
def addressStep (s : State) : State :=
  let d := addressData s.req.address s.req.function
  emit (codewordOf d) (runPacker d s)

/-- R99, step 5: the selected Character Encoder from position `PREFIX + 1`, without resetting `OUTPTR`. -/
def messageStep (s : State) : State :=
  if s.req.numeric then runNumeric (s.assembler.prefixLen + 1) s else runText (s.assembler.prefixLen + 1) s

/-- R100, step 6: the end marker. -/
def endStep (s : State) : State := emit Config.IDLE s

/-- R101: the number of padding words, `(17 - (OUTPTR - START) mod 17) mod 17`. -/
def paddingWords (s : State) : Nat :=
  (Config.BATCH_WORDS - (s.assembler.outptr - s.assembler.start) % Config.BATCH_WORDS) % Config.BATCH_WORDS

/-- R101, step 7: IDLE until the words from the first SYNC on are a multiple of 17; the number of rounds of that loop is
`paddingWords`. -/
def padStep (s : State) : State := emitRun (paddingWords s) Config.IDLE s

/-- R94, R104: the step `PHASE` names is done and `PHASE` moves to the next value. -/
def phaseStep (s : State) : State :=
  match s.assembler.phase with
  | .s1Preamble => setPhase .s2Sync (preambleStep s)
  | .s2Sync => setPhase .s3Prefix (syncStep s)
  | .s3Prefix => setPhase .s4Address (prefixStep s)
  | .s4Address => setPhase .s5Message (addressStep s)
  | .s5Message => setPhase .s6End (messageStep s)
  | .s6End => setPhase .s7Pad (endStep s)
  | .s7Pad => setPhase .done (padStep s)
  | .done => s

/-- R94: the operation's start, `OUTPTR` 0 and `PHASE` at its first step. -/
def startTransmission (s : State) : State := setPhase .s1Preamble (clearOutptr s)

/-- R94: the seven steps, from the start to `DONE`. -/
def runTransmission (s : State) : State := loop 7 phaseStep (startTransmission s)

/-- R93, R12: the operands of TRANSMIT in their ports. -/
def loadTransmit (numeric : Bool) (address function length : Nat) (s : State) : State :=
  s.setReq { s.req with op := 6#4, numeric := numeric, address := BitVec.ofNat 21 address,
                        function := BitVec.ofNat 2 function, length := length }

/-- R93, R94: TRANSMIT once admitted. -/
def performTransmit (numeric : Bool) (address function length : Nat) (s : State) : State :=
  let s := runTransmission (loadTransmit numeric address function length s)
  finishCount s.assembler.outptr s

/-- R93 `TRANSMIT`. -/
def execTransmit (numeric : Bool) (address function length : Nat) (s : State) : Host.Outcome State Fault Refusal :=
  complete (checkRequest (fitsPort 21 address && fitsPort 2 function)
      [length, transmissionWords numeric (BitVec.ofNat 21 address) length]
      (transmissionWords numeric (BitVec.ofNat 21 address) length) s)
    (performTransmit numeric address function length) s

end Sys2Proof.Machine
end

