-- ==== Sys2Proof/Machine/Nop.lean ====
section
/-! DEFINITION. NOP (30_encoding.md R61). -/

namespace Sys2Proof.Machine

/-- R61, R12: NOP once admitted. -/
def performNop (s : State) : State := finishNone (s.setReq { s.req with op := 10#4 })

/-- R61 `NOP`: reads nothing, writes nothing, ends `OK` with `RES.value` and `RES.count` unspecified. -/
def execNop (s : State) : Host.Outcome State Fault Refusal := complete (checkRequest true [] 0 s) performNop s

end Sys2Proof.Machine
end

