-- ==== Sys2Proof/Machine/Sink.lean ====
section
/-! DEFINITION. The bit-serial sink at the boundary (20_memory.md R38): the consumer of the five word formats of the table
(30_encoding.md R62), whose effect on a word is the meaning the model gives those rows (log 10, log 11). -/

namespace Sys2Proof.Machine

/-- R38: the level the line carries for one bit of a word. -/
def lineLevel (p : Config.Polarity) (b : Bool) : Bool :=
  match p with
  | .normal => !b
  | .inverted => b

/-- R38: the levels for the `n` low bits of a word, most significant first; each lasts one bit interval (log 23). -/
def lineLevels (p : Config.Polarity) (w : Word) : Nat → List Bool
  | 0 => []
  | n + 1 => lineLevel p (w.getLsbD n) :: lineLevels p w n

/-- R38: the sink sends the 32 bits of a word and moves to the next word. -/
def sinkSend (w : Word) (s : State) : Host.Outcome State Fault Refusal :=
  .next (s.setSink ⟨s.sink.index + 1, s.sink.count, s.sink.line ++ lineLevels s.params.polarity w 32⟩)

/-- R46, R38: a SYNC word. -/
def execSync (s : State) : Host.Outcome State Fault Refusal := sinkSend Config.SYNC s

/-- R46, R38: an IDLE word. -/
def execIdle (s : State) : Host.Outcome State Fault Refusal := sinkSend Config.IDLE s

/-- R46, R38: a preamble word. -/
def execPreambleWord (s : State) : Host.Outcome State Fault Refusal := sinkSend Config.PREAMBLE_WORD s

/-- R43, R38: an address word. -/
def execAddressWord (a : BitVec 18) (f : BitVec 2) (c : BitVec 10) (p : Bool) (s : State) :
    Host.Outcome State Fault Refusal := sinkSend (addressBits a f c p) s

/-- R44, R38: a message word. -/
def execMessageWord (d : Field20) (c : BitVec 10) (p : Bool) (s : State) : Host.Outcome State Fault Refusal :=
  sinkSend (messageBits d c p) s

/-- R38: the sink is handed the first `n` words of OUT and starts at word 0. DESIGN CHOICE (log 25): words of an earlier buffer that
it has not sent yet are dropped; the spec does not say what becomes of them. -/
def startSink (n : Nat) (s : State) : State := s.setSink ⟨0, n, s.sink.line⟩

/-- R143: how long `n` words occupy the line, in bit intervals of 1/`Config.BIT_RATE` s. -/
def lineIntervals (n : Nat) : Nat := 32 * n

end Sys2Proof.Machine
end

