-- ==== Sys2Proof/Machine/Dispatch.lean ====
section
/-! DEFINITION. One arm per constructor of `Instr`, each one call of that instruction's meaning. -/

namespace Sys2Proof.Machine

def exec (i : Instr) (s : State) : Host.Outcome State Fault Refusal :=
  match i with
  | .crc data => Sys2Proof.Machine.execCrc data s
  | .parity word => Sys2Proof.Machine.execParity word s
  | .codeword data => Sys2Proof.Machine.execCodeword data s
  | .digit char => Sys2Proof.Machine.execDigit char s
  | .text offset length => Sys2Proof.Machine.execText offset length s
  | .numeric offset length => Sys2Proof.Machine.execNumeric offset length s
  | .transmit numeric address function length => Sys2Proof.Machine.execTransmit numeric address function length s
  | .addroff address => Sys2Proof.Machine.execAddroff address s
  | .textlen address length => Sys2Proof.Machine.execTextlen address length s
  | .numlen address length => Sys2Proof.Machine.execNumlen address length s
  | .nop => Sys2Proof.Machine.execNop s
  | .sync => Sys2Proof.Machine.execSync s
  | .idle => Sys2Proof.Machine.execIdle s
  | .preambleWord => Sys2Proof.Machine.execPreambleWord s
  | .addressWord a f c p => Sys2Proof.Machine.execAddressWord a f c p s
  | .messageWord d c p => Sys2Proof.Machine.execMessageWord d c p s

end Sys2Proof.Machine
end

