-- ==== Sys2Proof/Machine/Fetch.lean ====
section
/-! DEFINITION. Where the next instruction comes from: the caller's next event (log 5). A request is decoded from its ports for
the block (30_encoding.md R57, R58); a word is taken from OUT for the sink (20_memory.md R38). -/

namespace Sys2Proof.Machine

/-- What a step finds to do. -/
inductive Fetched
  /-- an instruction, and the state it starts from -/
  | run (i : Instr) (s : State)
  /-- an event that is no instruction: the step ends in this state -/
  | settled (s : State)
  deriving Repr

/-- A request's instruction, or the refusal of a reserved operation number (R55, R58, R116, R120: the first check). -/
def fetchRequest (ports : Ports) (s : State) : Fetched :=
  match decodePorts ports with
  | .instr i => .run i s
  | .reservedOp _ => .settled (reject .reservedOp s)

/-- R38, R35: the sink's next word, what `OUT[k]` holds for k below the count it was handed; when none is left it does nothing
(log 11). -/
def fetchWord (s : State) : Fetched :=
  if s.sink.index < s.sink.count then .run (decodeWord (s.outWord s.sink.index)) s else .settled s

/-- The next event is taken from the caller's list. With none pending the block waits for a request (R132). -/
def fetch (s : State) : Fetched :=
  match s.inbox with
  | [] => .settled s
  | .request ports message capacity :: rest => fetchRequest ports (presentRequest message capacity (s.setInbox rest))
  | .reset :: rest => .settled (resetBlock (s.setInbox rest))
  | .resetDuring _ message capacity :: rest =>
    .settled (resetMidOperation (presentRequest message capacity (s.setInbox rest)))
  | .leaveWords first words :: rest => .settled (leaveInOut first words (s.setInbox rest))
  | .sinkStart n :: rest => .settled (startSink n (s.setInbox rest))
  | .sinkWord :: rest => fetchWord (s.setInbox rest)

/-- An encoded instruction made the very next one: a request becomes the next event, with no message bytes and the capacity
the state has; a word is stored in OUT at the sink's index, which is made one it was handed, and the sink takes it next
(log 19). -/
def placeNext (e : Encoded) (s : State) : State :=
  match e with
  | .request ports => s.setInbox (.request ports [] s.outCapacity :: s.inbox)
  | .word w =>
    ((s.setOut (OutSpace.write s.out s.sink.index w)).setSink
      { s.sink with count := max s.sink.count (s.sink.index + 1) }).setInbox (.sinkWord :: s.inbox)

end Sys2Proof.Machine
end

