-- ==== Sys2Proof/Machine/Step.lean ====
section
/-! DEFINITION. One step: one event of the caller, and the whole operation it asks for (00_scope.md R6, log 4). -/

namespace Sys2Proof.Machine

/-- The next event is fetched; its instruction, if it is one, runs to its outcome. -/
def step (s : State) : Host.Outcome State Fault Refusal :=
  match fetch s with
  | .run i t => exec i t
  | .settled t => .next t

/-- The state with the instruction of a table row made the very next one (log 19). -/
def State.withFetchWord (s : State) (nbits w : Nat) : State := placeNext (layTableWord nbits w) s

end Sys2Proof.Machine
end

