-- ==== Sys2Proof/Machine/ClosedForms.lean ====
section
/-! DEFINITION. The closed forms the spec gives beside its procedures, over natural numbers and written without the machine's
state: the stream bits of 30_encoding.md R47 and R49, the data fields and counts of 42_character_encoders.md R85 and R86, the
layout of 43_frame_assembler.md R102, and the polynomials of 40_checksum_unit.md R64. The machine does not use them; claims compare it with
them. -/

namespace Sys2Proof.Machine

/-- R85: b, the bits per character. -/
def layoutBits (numeric : Bool) : Nat := if numeric then 4 else 7

/-- R85: m, the message words of `length` characters. -/
def layoutMessageWords (numeric : Bool) (length : Nat) : Nat := (length * layoutBits numeric + 19) / 20

/-- R85: the words a Character Encoder writes from position `offset`. -/
def layoutEncoderWords (numeric : Bool) (offset length : Nat) : Nat :=
  layoutMessageWords numeric length + (offset + layoutMessageWords numeric length) / 16

/-- R102: p, twice the frame number. -/
def layoutPrefix (address : Nat) : Nat := 2 * (address % 8)

/-- R102: n, the codewords through the end marker. -/
def layoutCodewords (numeric : Bool) (address length : Nat) : Nat :=
  layoutPrefix address + layoutMessageWords numeric length + 2

/-- R102: B, the batches. -/
def layoutBatches (numeric : Bool) (address length : Nat) : Nat := (layoutCodewords numeric address length + 15) / 16

/-- R102: N, the words of the transmission. -/
def layoutWords (numeric : Bool) (address length : Nat) : Nat := 18 + 17 * layoutBatches numeric address length

/-- R48: the characters the digit table recognises and their nibbles. -/
def layoutDigits : List (Byte × Nibble) :=
  [(0x30#8, 0#4), (0x31#8, 8#4), (0x32#8, 4#4), (0x33#8, 12#4), (0x34#8, 2#4), (0x35#8, 10#4), (0x36#8, 6#4), (0x37#8, 14#4),
   (0x38#8, 1#4), (0x39#8, 9#4), (0x20#8, 3#4), (0x55#8, 13#4), (0x75#8, 13#4), (0x2D#8, 11#4), (0x5F#8, 11#4), (0x28#8, 15#4),
   (0x5B#8, 15#4), (0x29#8, 7#4), (0x5D#8, 7#4)]

/-- R48: the nibble of a character, 5 for every other one. -/
def layoutDigit (c : Byte) : Nibble := (layoutDigits.lookup c).getD 5#4

/-- R47 (text) and R49 (numeric): stream bit `k` of a message of `length` characters, 0 beyond its end (R86). -/
def streamBit (numeric : Bool) (message : Nat → Byte) (length k : Nat) : Bool :=
  if k < length * layoutBits numeric then
    if numeric then (layoutDigit (message (k / 4))).getLsbD (3 - k % 4) else (message (k / 7)).getLsbD (k % 7)
  else false

/-- `n` bits of a stream, the first one highest. -/
def packBits (f : Nat → Bool) : (n : Nat) → BitVec n
  | 0 => 0#0
  | n + 1 => (packBits f n).concat (f n)

/-- R86: the data field of message word `w`: its bit `19 - j` is stream bit `20w + j`. -/
def layoutField (numeric : Bool) (message : Nat → Byte) (length w : Nat) : Field20 :=
  packBits (fun j => streamBit numeric message length (20 * w + j)) 20

/-- R44, R86: message word `w`: flag 1 and its data field, packed. -/
def layoutMessageWord (numeric : Bool) (message : Nat → Byte) (length w : Nat) : Word :=
  codewordOf (1#1 ++ layoutField numeric message length w)

/-- R43: the address word: flag 0, `address[20:3]`, the function bits, packed. -/
def layoutAddressWord (address function : Nat) : Word :=
  codewordOf (0#1 ++ BitVec.ofNat 18 (address / 8) ++ BitVec.ofNat 2 function)

/-- R102: the codeword sequence C, by index. -/
def layoutCodeword (numeric : Bool) (address function : Nat) (message : Nat → Byte) (length i : Nat) : Word :=
  if i < layoutPrefix address then Config.IDLE
  else if i = layoutPrefix address then layoutAddressWord address function
  else if i < layoutPrefix address + 1 + layoutMessageWords numeric length then
    layoutMessageWord numeric message length (i - layoutPrefix address - 1)
  else Config.IDLE

/-- R64: a bit string read as a polynomial over GF(2), bit i the coefficient of x^i. -/
noncomputable def polynomialOf {w : Nat} (v : BitVec w) : Polynomial (ZMod 2) :=
  ∑ i ∈ Finset.range w, if v.getLsbD i then Polynomial.X ^ i else 0

/-- R64: g(x), the bits of `GEN` as coefficients. -/
noncomputable def generatorPolynomial : Polynomial (ZMod 2) := polynomialOf Config.GEN

/-- The number of set bits of a value (R9 `popcount`). -/
def popcount {w : Nat} (v : BitVec w) : Nat := ((List.range w).filter fun i => v.getLsbD i).length

end Sys2Proof.Machine
end

