-- ==== Sys2Proof/Safety.lean ====
section
/-! DEFINITION. What the claims call a good state, and the terms they use of a request: what it is (an operation of the block, not
a word), which lengths and counts LEN_MAX bounds, how many words it writes, and what it returns. -/

namespace Sys2Proof.Machine

/-- The working registers whose range the spec states, between two operations: `COL` 0..21 (R14), `BIDX` 0..6 (R16), `NBITS` 0..19
(R18), `WPOS` 0..15 (R19), `PREFIX` 0..14 and even (R21). -/
def State.registersInRange (s : State) : Bool :=
  decide (s.checksum.col ≤ 21) && decide (s.encoder.bidx ≤ 6) && decide (s.encoder.nbits ≤ 19) &&
    decide (s.encoder.wpos ≤ 15) && decide (s.assembler.prefixLen ≤ 14) && decide (s.assembler.prefixLen % 2 = 0)

/-- A good state: both spaces in canonical form, a legal result pair, the registers in range, the sink within its buffer. -/
def State.good (s : State) : Bool :=
  s.msg.wf && s.out.wf && s.res.legal && s.registersInRange && decide (s.sink.index ≤ s.sink.count)

/-- A number within a bound; every number is within no bound (R8). -/
def within (n : Nat) : Option Nat → Prop
  | none => True
  | some m => n ≤ m

end Sys2Proof.Machine

namespace Sys2Proof

open Machine

/-- An operation of R58, not a word format. -/
def Instr.isRequest : Instr → Bool
  | .crc _ | .parity _ | .codeword _ | .digit _ | .text _ _ | .numeric _ _ | .transmit _ _ _ _ | .addroff _ | .textlen _ _
  | .numlen _ _ | .nop => true
  | .sync | .idle | .preambleWord | .addressWord _ _ _ _ | .messageWord _ _ _ => false

/-- R116 reason 3: the length and the word count of the five operations it applies to (log 7). -/
def Instr.boundedCounts : Instr → List Nat
  | .text offset length => [length, layoutEncoderWords false offset length]
  | .numeric offset length => [length, layoutEncoderWords true offset length]
  | .transmit isNumeric address _ length => [length, layoutWords isNumeric address length]
  | .textlen address length => [length, layoutWords false address length]
  | .numlen address length => [length, layoutWords true address length]
  | .crc _ | .parity _ | .codeword _ | .digit _ | .addroff _ | .nop | .sync | .idle | .preambleWord | .addressWord _ _ _ _
  | .messageWord _ _ _ => []

/-- R35, R117: the words of OUT an operation writes when it ends `OK`, at indices 0 on. -/
def Instr.wordsWritten : Instr → Nat
  | .text offset length => layoutEncoderWords false offset length
  | .numeric offset length => layoutEncoderWords true offset length
  | .transmit isNumeric address _ length => layoutWords isNumeric address length
  | .crc _ | .parity _ | .codeword _ | .digit _ | .addroff _ | .textlen _ _ | .numlen _ _ | .nop | .sync | .idle
  | .preambleWord | .addressWord _ _ _ _ | .messageWord _ _ _ => 0

/-- R13: the operations whose result is `RES.value`. -/
def Instr.returnsValue : Instr → Bool
  | .crc _ | .parity _ | .codeword _ | .digit _ => true
  | .text _ _ | .numeric _ _ | .transmit _ _ _ _ | .addroff _ | .textlen _ _ | .numlen _ _ | .nop | .sync | .idle
  | .preambleWord | .addressWord _ _ _ _ | .messageWord _ _ _ => false

/-- R13: the operations whose result is `RES.count`. -/
def Instr.returnsCount : Instr → Bool
  | .text _ _ | .numeric _ _ | .transmit _ _ _ _ | .addroff _ | .textlen _ _ | .numlen _ _ => true
  | .crc _ | .parity _ | .codeword _ | .digit _ | .nop | .sync | .idle | .preambleWord | .addressWord _ _ _ _
  | .messageWord _ _ _ => false

/-- R31: how many message bytes an operation reads. -/
def Instr.bytesRead : Instr → Nat
  | .text _ length | .numeric _ length | .transmit _ _ _ length => length
  | .crc _ | .parity _ | .codeword _ | .digit _ | .addroff _ | .textlen _ _ | .numlen _ _ | .nop | .sync | .idle
  | .preambleWord | .addressWord _ _ _ _ | .messageWord _ _ _ => 0

end Sys2Proof

namespace Sys2Proof.Machine

/-- R113, R114: the request is inside the documented domains, the bounds and the capacity. -/
def admissible (i : Instr) (s : State) : Prop :=
  i.wellFormed = true ∧ (∀ n ∈ i.boundedCounts, within n s.params.lenMax) ∧ within i.wordsWritten s.outCapacity

end Sys2Proof.Machine
end

