-- ==== Sys2Proof/Certificates/Slice0/Obligations.lean ====
section
/-! DEFINITION. The statements for the provers, from the numbered rules of spec/. A statement that rests on a choice of the
model's own says so in its docstring and names the log entry. `RES.value` and `RES.count`, where an operation leaves them
unspecified, are existentially quantified: no statement rests on a free value (logs 2, 13). A frame that says a register is unchanged
rests on logs 3 and 8 for the working and request registers the spec leaves unspecified (U3). -/

open Sys2Proof Sys2Proof.Machine

/-! Reset, waiting, the step. -/

/-- The digit ROM and the parameters' defaults are at reset what the spec gives (R24, R28, R8). That nothing is listed in MSG and
OUT is the model's choice (logs 12 and 13, DESIGN CHOICE; the spec gives the caller's memories no content). A machine with nothing
pending waits, at reset and anywhere (R132; the one-event step is the model's form of it, log 5, and that the registers keep their
values meanwhile is its choice, log 3). -/
def Obligations.ResetValuesAndWaiting : Prop :=
  State.reset.params = ⟨none, .normal⟩ ∧ State.reset.outCapacity = none ∧ State.reset.msg = [] ∧ State.reset.out = [] ∧
  ((List.range 10).map romRead = [0#4, 8#4, 4#4, 12#4, 2#4, 10#4, 6#4, 14#4, 1#4, 9#4]) ∧
  ∀ s : State, s.inbox = [] → step s = .next s

/-- A step runs the decoded instruction: a pending request whose ports decode to `i` is taken off the list, its bytes are placed
in MSG from index 0 on (the other bytes as before), its capacity is the one in force, and the step is `exec i` from there (R57,
R58). The event list, the placing of the bytes over what MSG held, and a capacity that comes with the request and stays in force are
the model's choice (logs 5, 12 and 6, DESIGN CHOICE). That
OUT is the storage of the request before is log 24 (DESIGN CHOICE). -/
def Obligations.StepRunsTheDecodedRequest : Prop :=
  ∀ (s : State) (ports : Ports) (message : List Byte) (capacity : Option Nat) (rest : List Event) (i : Instr),
    s.inbox = .request ports message capacity :: rest → decode (.request ports) = .instr i →
    ∃ m : Memory, (∀ k, Memory.read m k = (message[k]?).getD (Memory.read s.msg k)) ∧
      step s = exec i { s with inbox := rest, outCapacity := capacity, msg := m }

/-- The sink's step: told to take a word while it has one left, it runs the instruction that what a reader of OUT sees there decodes
to, the word written there or, where none is, a free value (R35, R38; log 13); with none left nothing happens but the event's end
(log 11). That the sink runs a word of OUT as an instruction is the model's choice (log 10, DESIGN CHOICE): R38 says that its 32
bits are sent. -/
def Obligations.StepRunsTheSinksNextWord : Prop :=
  ∀ (s : State) (rest : List Event), s.inbox = .sinkWord :: rest →
    (s.sink.index < s.sink.count → step s = exec (decodeWord (s.outWord s.sink.index)) { s with inbox := rest }) ∧
    (∀ w, s.sink.index < s.sink.count → OutSpace.read s.out s.sink.index = some w →
      step s = exec (decodeWord w) { s with inbox := rest }) ∧
    (s.sink.count ≤ s.sink.index → step s = .next { s with inbox := rest })

/-- The sink is handed the first `n` words of OUT and starts at word 0 (R38). The event is the model's (log 11), and that words of an
earlier buffer not sent yet are dropped is its choice (log 25, DESIGN CHOICE). -/
def Obligations.SinkStartHandsOverTheBuffer : Prop :=
  ∀ (s : State) (rest : List Event) (n : Nat), s.inbox = .sinkStart n :: rest →
    step s = .next { s with inbox := rest, sink := ⟨0, n, s.sink.line⟩ }

/-- R35's reader: the words the caller leaves in OUT are what a reader sees there, and nothing else changes; and what a reader sees of
OUT stays as it is through every step that neither runs a request, nor leaves words, nor resets the block in the middle of an
operation (R29, R30). The events are the model's choice (logs 5 and 13), and so is that a reset of the block between operations leaves
OUT as it is (log 18, DESIGN CHOICE). The
storage is one for all requests (log 24, DESIGN CHOICE). -/
def Obligations.CallersWordsStandInOut : Prop :=
  (∀ (s : State) (first : Nat) (words : List Word) (rest : List Event), s.inbox = .leaveWords first words :: rest →
    ∃ t, step s = .next t ∧ t = { s with inbox := rest, out := t.out } ∧
      (∀ j < words.length, words[j]? = some (t.outWord (first + j))) ∧
      (∀ k, k < first ∨ first + words.length ≤ k → t.outWord k = s.outWord k)) ∧
  (∀ s t : State, step s = .next t →
    (∀ p m c rest, s.inbox ≠ .request p m c :: rest ∧ s.inbox ≠ .resetDuring p m c :: rest) →
    (∀ first words rest, s.inbox ≠ .leaveWords first words :: rest) → ∀ k, t.outWord k = s.outWord k)

/-! Encodings. -/

/-- Words written out from the table: the operation numbers of R58, and one word of each format of R41, R43, R44, R46. That a
request row, whose operands have no bits in the table, decodes with every operand 0 is the model's choice (log 19, DESIGN CHOICE).
The crc and parity fields of the two wide words are read and not checked (log 22, DEDUCED). -/
def Obligations.TableWordsDecode : Prop :=
  decodeTableWord 8 0 = some (.crc 0) ∧ decodeTableWord 8 1 = some (.parity 0) ∧ decodeTableWord 8 2 = some (.codeword 0) ∧
  decodeTableWord 8 3 = some (.digit 0) ∧ decodeTableWord 8 4 = some (.text 0 0) ∧ decodeTableWord 8 5 = some (.numeric 0 0) ∧
  decodeTableWord 8 6 = some (.transmit false 0 0 0) ∧ decodeTableWord 8 7 = some (.addroff 0) ∧
  decodeTableWord 8 8 = some (.textlen 0 0) ∧ decodeTableWord 8 9 = some (.numlen 0 0) ∧ decodeTableWord 8 10 = some .nop ∧
  (∀ op ∈ [11, 12, 13, 14, 15], decodeTableWord 8 op = none) ∧
  decodeTableWord 32 0x7CD215D8 = some .sync ∧ decodeTableWord 32 0x7A89C197 = some .idle ∧
  decodeTableWord 32 0xAAAAAAAA = some .preambleWord ∧
  decodeTableWord 32 0b00111000011010111011100101011011 =
    some (.addressWord 0b011100001101011101 0b11 0b0010101101 true) ∧
  decodeTableWord 32 0b10010010000000000000001110101000 = some (.messageWord 0b00100100000000000000 0b0111010100 false)

/-- Decoding an encoded well-formed instruction gives it back, every operand at every value its port admits (R58, R62). -/
def Obligations.DecodeOfEncodeIsTheInstruction : Prop :=
  ∀ i : Instr, i.wellFormed = true → decode (encode i) = .instr i

/-- Every word of OUT has one meaning: the instruction it decodes to is well-formed and encodes to that word, its fields at the bits
of R41, R43 and R44, by the precedence of R62. That a word is classified by its bits alone, its crc and parity not checked, is log
22 (DEDUCED). -/
def Obligations.EveryWordDecodesToItsRow : Prop :=
  ∀ w : Word, (decodeWord w).wellFormed = true ∧ encode (decodeWord w) = .word w ∧
    (w = Config.SYNC → decodeWord w = .sync) ∧ (w = Config.IDLE → decodeWord w = .idle) ∧
    (w = Config.PREAMBLE_WORD → decodeWord w = .preambleWord) ∧
    (w ≠ Config.SYNC → w ≠ Config.IDLE → w.getLsbD 31 = false →
      ∃ a f c p, decodeWord w = .addressWord a f c p ∧ (∀ j < 18, a.getLsbD j = w.getLsbD (13 + j)) ∧
        (∀ j < 2, f.getLsbD j = w.getLsbD (11 + j)) ∧ (∀ j < 10, c.getLsbD j = w.getLsbD (1 + j)) ∧ p = w.getLsbD 0) ∧
    (w ≠ Config.PREAMBLE_WORD → w.getLsbD 31 = true →
      ∃ d c p, decodeWord w = .messageWord d c p ∧ (∀ j < 20, d.getLsbD j = w.getLsbD (11 + j)) ∧
        (∀ j < 10, c.getLsbD j = w.getLsbD (1 + j)) ∧ p = w.getLsbD 0)

/-! The Checksum Unit. -/

/-- CRC completes on every 21-bit operand; it writes its own request registers, the Checksum Unit's registers and the result, and
nothing else (R63; the whole next state but the unspecified count). That `COL` ends at 21 is the model's (log 15, DEDUCED). That the
request registers it does not read keep their values is the model's choice (log 8, DESIGN CHOICE), and so is that the working
registers it does not write keep theirs (log 3, DESIGN CHOICE). -/
def Obligations.CrcCompletes : Prop :=
  ∀ (s : State) (m : Nat), m < 2 ^ 21 → ∃ (k : ChecksumRegs) (c : Nat),
    exec (.crc m) s = .next { s with
      req := { s.req with op := 0#4, data := BitVec.ofNat 21 m }
      res := ⟨0#2, 0#4, (crcOf (BitVec.ofNat 21 m)).setWidth 32, c⟩
      checksum := k
      freeIndex := s.freeIndex + 1 } ∧
    (k.msgreg = (crcOf (BitVec.ofNat 21 m)).setWidth 31 ∧ k.den = 0x3B4#31 ∧ k.col = 21)

/-- R64: `(m << 10) | crc(m)` is divisible by the generator, `crc(m)` is the only 10-bit value for which it is, and it is the
remainder of `m(x) * x^10` by g(x). -/
def Obligations.CrcIsTheUniqueRemainder : Prop :=
  (generatorPolynomial = Polynomial.X ^ 10 + Polynomial.X ^ 9 + Polynomial.X ^ 8 + Polynomial.X ^ 6 + Polynomial.X ^ 5 +
    Polynomial.X ^ 3 + 1) ∧
  ∀ m : Data21, (generatorPolynomial ∣ polynomialOf (m ++ crcOf m)) ∧
    (∀ v : BitVec 10, generatorPolynomial ∣ polynomialOf (m ++ v) → v = crcOf m) ∧
    (polynomialOf (crcOf m) = (polynomialOf m * Polynomial.X ^ 10) %ₘ generatorPolynomial)

/-- R65: CRC is linear, its values on the single bits are the table's, every CRC is the XOR of the entries of the bits set, and
each entry follows from the one before. -/
def Obligations.CrcIsLinearWithTheTabledBasis : Prop :=
  let table : List (BitVec 10) := [0x369, 0x1BB, 0x376, 0x185, 0x30A, 0x17D, 0x2FA, 0x29D, 0x253, 0x3CF, 0x0F7, 0x1EE, 0x3DC,
    0x0D1, 0x1A2, 0x344, 0x1E1, 0x3C2, 0x0ED, 0x1DA, 0x3B4]
  (∀ a b : Data21, crcOf (a ^^^ b) = crcOf a ^^^ crcOf b) ∧
  (∀ i < 21, crcOf (1#21 <<< i) = table.getD i 0) ∧
  (∀ m : Data21, crcOf m = (List.range 21).foldl (fun acc i => if m.getLsbD i then acc ^^^ table.getD i 0 else acc) 0#10) ∧
  (∀ i < 20, crcOf (1#21 <<< (i + 1)) =
    let shifted : BitVec 11 := (crcOf (1#21 <<< i)).setWidth 11 <<< 1
    (if shifted.getLsbD 10 then shifted ^^^ 0x769#11 else shifted).setWidth 10)

/-- PARITY completes on every 32-bit operand; its value is the number of set bits modulo 2, the other bits 0 (R66); nothing else
changes but its request registers. That the request registers it does not read keep their values is the model's choice (log 8,
DESIGN CHOICE), and so is that the working registers it does not write keep theirs (log 3, DESIGN CHOICE). -/
def Obligations.ParityCompletesWithTheCountOfOnes : Prop :=
  ∀ (s : State) (w : Nat), w < 2 ^ 32 → ∃ c : Nat,
    exec (.parity w) s = .next { s with
      req := { s.req with op := 1#4, word := BitVec.ofNat 32 w }
      res := ⟨0#2, 0#4, BitVec.ofNat 32 (popcount (BitVec.ofNat 32 w) % 2), c⟩
      freeIndex := s.freeIndex + 1 }

/-- R67: PARITY is 1 exactly when the number of set bits is odd, it is additive, and a value with its parity appended has an even
number of ones. -/
def Obligations.ParityIsOddCountAndAdditive : Prop :=
  (∀ w : Word, parityOf w = true ↔ popcount w % 2 = 1) ∧
  (∀ a b : Word, parityOf (a ^^^ b) = (parityOf a ^^ parityOf b)) ∧
  (∀ v : Word, popcount (v.concat (parityOf v)) % 2 = 0)

/-! The Codeword Packer. -/

/-- CODEWORD completes on every 21-bit operand, the flag bit whatever it is; it writes its own request registers, the packer's and
the Checksum Unit's registers and the result, and nothing else (R73). That the request registers it does not read keep their values
is the model's choice (log 8, DESIGN CHOICE), and so is that the working registers it does not write keep theirs (log 3, DESIGN
CHOICE). -/
def Obligations.CodewordCompletes : Prop :=
  ∀ (s : State) (d : Nat), d < 2 ^ 21 → ∃ (k : ChecksumRegs) (c : Nat),
    exec (.codeword d) s = .next { s with
      req := { s.req with op := 2#4, data := BitVec.ofNat 21 d }
      res := ⟨0#2, 0#4, codewordOf (BitVec.ofNat 21 d), c⟩
      checksum := k
      packer := ⟨BitVec.ofNat 21 d ++ crcOf (BitVec.ofNat 21 d), (codewordOf (BitVec.ofNat 21 d)).getLsbD 0⟩
      freeIndex := s.freeIndex + 1 }

/-- R74: every codeword has an even number of set bits. -/
def Obligations.CodewordHasEvenParity : Prop :=
  ∀ d : Data21, parityOf (codewordOf d) = false ∧ popcount (codewordOf d) % 2 = 0

/-- R76: the fields of a codeword; `w >> 11` recovers the data; a word is a codeword exactly when packing its top 21 bits gives it
back; 2^21 words are. -/
def Obligations.CodewordFieldsAndRange : Prop :=
  (∀ d : Data21, (codewordOf d).extractLsb' 11 21 = d ∧ (codewordOf d).extractLsb' 1 10 = crcOf d ∧
    (codewordOf d).getLsbD 0 = parityOf ((codewordOf d) >>> 1) ∧ (codewordOf d >>> 11).toNat = d.toNat) ∧
  (∀ a b : Data21, codewordOf a = codewordOf b → a = b) ∧
  (∀ w : Word, (∃ d, codewordOf d = w) ↔ codewordOf (w.extractLsb' 11 21) = w) ∧
  (Set.range codewordOf).ncard = 2 ^ 21

/-- R77: CODEWORD is linear; a message word is `0x80000769 ^ CODEWORD(BUF)`. -/
def Obligations.CodewordIsLinear : Prop :=
  (∀ a b : Data21, codewordOf (a ^^^ b) = codewordOf a ^^^ codewordOf b) ∧
  (∀ f : Field20, codewordOf (1#1 ++ f) = 0x80000769#32 ^^^ codewordOf (0#1 ++ f))

/-- R52: SYNC and IDLE are codewords with the stated CRC fields; an address word equals SYNC, or IDLE, exactly for the stated
eight addresses and function bits; no message word equals SYNC, IDLE or the preamble word, and the preamble word is no codeword. -/
def Obligations.SyncAndIdleAreTheSixteenAddressWords : Prop :=
  (codewordOf 0x0F9A42#21 = Config.SYNC ∧ crcOf 0x0F9A42#21 = 0x2EC#10 ∧ parityOf Config.SYNC = false) ∧
  (codewordOf 0x0F5138#21 = Config.IDLE ∧ crcOf 0x0F5138#21 = 0x0CB#10 ∧ parityOf Config.IDLE = false) ∧
  (∀ (a : BitVec 21) (fn : BitVec 2), codewordOf (addressData a fn) = Config.SYNC ↔
    (2045056 ≤ a.toNat ∧ a.toNat ≤ 2045063) ∧ fn = 2#2) ∧
  (∀ (a : BitVec 21) (fn : BitVec 2), codewordOf (addressData a fn) = Config.IDLE ↔
    (2007664 ≤ a.toNat ∧ a.toNat ≤ 2007671) ∧ fn = 0#2) ∧
  (∀ f : Field20, codewordOf (messageData f) ≠ Config.SYNC ∧ codewordOf (messageData f) ≠ Config.IDLE ∧
    codewordOf (messageData f) ≠ Config.PREAMBLE_WORD) ∧
  codewordOf 0x155555#21 = 0xAAAAAF1B#32 ∧ (Config.PREAMBLE_WORD >>> 11).toNat = 0x155555

/-! The Character Encoders. -/

/-- DIGIT completes on every 8-bit character with the value of R79's cases, the other bits 0; nothing else changes but its request
registers. The characters' byte codes are those of R48, general knowledge (log 21, PRESUMED). That the request registers it does not
read keep their values is the model's choice (log 8, DESIGN CHOICE), and so is that the working registers it does not write keep
theirs (log 3, DESIGN CHOICE). -/
def Obligations.DigitCompletes : Prop :=
  ∀ (s : State) (c : Nat), c < 2 ^ 8 → ∃ n : Nat,
    exec (.digit c) s = .next { s with
      req := { s.req with op := 3#4, char := BitVec.ofNat 8 c }
      res := ⟨0#2, 0#4, if 0x30 ≤ c ∧ c ≤ 0x39 then [0#32, 8#32, 4#32, 12#32, 2#32, 10#32, 6#32, 14#32, 1#32, 9#32].getD (c - 0x30) 0
        else if c = 0x20 then 3#32 else if c = 0x55 ∨ c = 0x75 then 13#32 else if c = 0x2D ∨ c = 0x5F then 11#32
        else if c = 0x28 ∨ c = 0x5B then 15#32 else if c = 0x29 ∨ c = 0x5D then 7#32 else 5#32, n⟩
      freeIndex := s.freeIndex + 1 }

/-- R48: the table of the nineteen recognised characters with their mirrored values, 5 for the other 237, every nibble produced, and
5 by the fallback only. The characters' byte codes are general knowledge, as R48 itself marks them (log 21, PRESUMED). -/
def Obligations.DigitTableIsTotal : Prop :=
  let table : List (Byte × Nibble × Nibble) := [(0x30, 0, 0), (0x31, 8, 1), (0x32, 4, 2), (0x33, 12, 3), (0x34, 2, 4), (0x35, 10, 5),
    (0x36, 6, 6), (0x37, 14, 7), (0x38, 1, 8), (0x39, 9, 9), (0x20, 3, 12), (0x55, 13, 11), (0x75, 13, 11), (0x2D, 11, 13),
    (0x5F, 11, 13), (0x28, 15, 15), (0x5B, 15, 15), (0x29, 7, 14), (0x5D, 7, 14)]
  (∀ e ∈ table, digitOf e.1 = e.2.1 ∧ rev4 e.2.1 = e.2.2) ∧
  (∀ c : Byte, c ∉ table.map Prod.fst ↔ digitOf c = 5#4) ∧ rev4 5#4 = 10#4 ∧
  ((List.range 256).filter fun c => decide (digitOf (BitVec.ofNat 8 c) = 5#4)).length = 237 ∧
  (∀ n : Nibble, ∃ c : Byte, digitOf c = n)

/-- R81: a message word is flagged, packed and written at `OUTPTR`, counted, and the position moves on; exactly when it was position
15 a SYNC follows at once, counted too, and the position is 0 again. Every other word of OUT is as before. -/
def Obligations.MessageWordEmission : Prop :=
  ∀ (f : Field20) (s : State), s.encoder.wpos ≤ 15 →
    let t := emitMsgWord f s
    let added := if s.encoder.wpos = 15 then 2 else 1
    OutSpace.read t.out s.assembler.outptr = some (codewordOf (1#1 ++ f)) ∧
    (s.encoder.wpos = 15 → OutSpace.read t.out (s.assembler.outptr + 1) = some Config.SYNC) ∧
    t.assembler = { s.assembler with outptr := s.assembler.outptr + added } ∧
    t.encoder = { s.encoder with wcount := s.encoder.wcount + added, wpos := (s.encoder.wpos + 1) % 16 } ∧
    (∀ k, k < s.assembler.outptr ∨ s.assembler.outptr + added ≤ k → OutSpace.read t.out k = OutSpace.read s.out k)

/-- R85, R86: TEXT and NUMERIC complete on every offset of 0..15 and every length for which the length and the word count are within
LEN_MAX and the count is within the capacity (which counts LEN_MAX bounds: log 7, DEDUCED). The count is m + (o + m) div 16 with m =
ceil_div(L * b, 20); message word k stands at index k + (o + k) div 16 and holds the data field whose bit 19 - j is stream bit 20k +
j; a SYNC follows every message word at position 15; the final position is (o + m) mod 16. The values of m the rule lists are stated
too. Words at and above the count are as before. In NUMERIC the digits' byte codes are log 21 (PRESUMED). -/
def Obligations.EncodersWriteTheirClosedForm : Prop :=
  (∀ (numeric : Bool) (i : Instr) (o L : Nat) (s : State),
    i = (if numeric then .numeric o L else .text o L) → o < 16 → within L s.params.lenMax →
    within (layoutEncoderWords numeric o L) s.params.lenMax → within (layoutEncoderWords numeric o L) s.outCapacity →
    ∃ t, exec i s = .next t ∧ t.res.status = 0#2 ∧ t.res.code = 0#4 ∧
      t.res.count = layoutMessageWords numeric L + (o + layoutMessageWords numeric L) / 16 ∧
      (∀ w < layoutMessageWords numeric L, ∃ f : Field20,
        (∀ j < 20, f.getLsbD (19 - j) = streamBit numeric (Memory.read s.msg) L (20 * w + j)) ∧
        OutSpace.read t.out (w + (o + w) / 16) = some (codewordOf (1#1 ++ f)) ∧
        ((o + w) % 16 = 15 → OutSpace.read t.out (w + (o + w) / 16 + 1) = some Config.SYNC)) ∧
      t.encoder.wpos = (o + layoutMessageWords numeric L) % 16 ∧
      (∀ k, t.res.count ≤ k → OutSpace.read t.out k = OutSpace.read s.out k)) ∧
  (∀ L, layoutMessageWords true L = (L + 4) / 5) ∧
  (∀ L, (layoutMessageWords false L = 0 ↔ L = 0) ∧ (1 ≤ L ∧ L ≤ 2 → layoutMessageWords false L = 1) ∧
    (3 ≤ L ∧ L ≤ 5 → layoutMessageWords false L = 2) ∧ (18 ≤ L ∧ L ≤ 20 → layoutMessageWords false L = 7))

/-- Where the characters lie in the words the machine writes. R49, its last sentences: after NUMERIC, character 5w + q is bits
30 - 4q .. 27 - 4q of message word w, with the value that DIGIT returns for it. R47: after TEXT, bit j of character i, j in 0..6, is
stream bit k = 7i + j, which is bit 30 - (k mod 20) of message word k div 20. The hypotheses are the admission of the request; which
counts LEN_MAX bounds is log 7 (DEDUCED). -/
def Obligations.CharactersLieInTheDataFields : Prop :=
  (∀ (s : State) (o L w q : Nat), admissible (.numeric o L) s → q < 5 → 5 * w + q < L →
    ∃ (t u : State) (word : Word), exec (.numeric o L) s = .next t ∧
      exec (.digit (Memory.read s.msg (5 * w + q)).toNat) s = .next u ∧
      OutSpace.read t.out (w + (o + w) / 16) = some word ∧ (word.extractLsb' (27 - 4 * q) 4).setWidth 32 = u.res.value) ∧
  (∀ (s : State) (o L i j : Nat), admissible (.text o L) s → i < L → j < 7 →
    ∃ (t : State) (word : Word), exec (.text o L) s = .next t ∧
      OutSpace.read t.out ((7 * i + j) / 20 + (o + (7 * i + j) / 20) / 16) = some word ∧
      word.getLsbD (30 - (7 * i + j) % 20) = (Memory.read s.msg i).getLsbD j)

/-- TEXT and NUMERIC change nothing but their request registers, the result, the working registers of the encoders, packer and
Checksum Unit, `OUTPTR`, and the words of OUT below their count; nothing of OUT when they do not end `OK` (R29, R35, R121). That the
request registers it does not read keep their values is the model's choice (log 8, DESIGN CHOICE), and so is that the working
registers it does not write keep theirs (log 3, DESIGN CHOICE). -/
def Obligations.EncodersFrame : Prop :=
  ∀ (i : Instr) (o L : Nat) (s t : State), i = .text o L ∨ i = .numeric o L → exec i s = .next t →
    t = { s with req := { s.req with op := t.req.op, offset := t.req.offset, length := t.req.length }, res := t.res,
                 checksum := t.checksum, packer := t.packer, encoder := t.encoder,
                 assembler := { s.assembler with outptr := t.assembler.outptr }, out := t.out, freeIndex := t.freeIndex } ∧
    (∀ k, i.wordsWritten ≤ k ∨ t.res.status ≠ 0#2 → OutSpace.read t.out k = OutSpace.read s.out k)

/-! The Frame Assembler. -/

/-- R102: TRANSMIT completes inside its domains and the bounds, and OUT is the layout: the preamble, a SYNC at the head of every
batch, and between them the codeword sequence C; N = 18 + 17B words with B at least 1 and at most 15 words of padding; words at and
above N are as before. `PHASE` ends at `DONE` and `OUTPTR` at N (U3). The bounds are the length and N within LEN_MAX and N within
the capacity; which counts LEN_MAX bounds is log 7 (DEDUCED). In numeric mode the digits' byte codes are log 21 (PRESUMED). -/
def Obligations.TransmitWritesItsClosedForm : Prop :=
  ∀ (numeric : Bool) (a fn L : Nat) (s : State), a < 2 ^ 21 → fn < 2 ^ 2 → within L s.params.lenMax →
    within (layoutWords numeric a L) s.params.lenMax → within (layoutWords numeric a L) s.outCapacity →
    1 ≤ layoutBatches numeric a L ∧ layoutCodewords numeric a L ≤ 16 * layoutBatches numeric a L ∧
    16 * layoutBatches numeric a L - layoutCodewords numeric a L ≤ 15 ∧
    ∃ t, exec (.transmit numeric a fn L) s = .next t ∧ t.res.status = 0#2 ∧ t.res.code = 0#4 ∧
      t.res.count = 18 + 17 * layoutBatches numeric a L ∧
      (∀ k < 18, OutSpace.read t.out k = some Config.PREAMBLE_WORD) ∧
      (∀ j < layoutBatches numeric a L, OutSpace.read t.out (18 + 17 * j) = some Config.SYNC) ∧
      (∀ i < 16 * layoutBatches numeric a L, OutSpace.read t.out (18 + 17 * (i / 16) + 1 + i % 16) =
        some (layoutCodeword numeric a fn (Memory.read s.msg) L i)) ∧
      (∀ k, t.res.count ≤ k → OutSpace.read t.out k = OutSpace.read s.out k) ∧
      t.assembler.phase = .done ∧ t.assembler.outptr = t.res.count

/-- R103, with its exception: the length is the preamble and whole batches; every 17th word from the first SYNC is SYNC, and
no other word is, unless the address word itself is; the address word stands at 19 + 2f; the count is the calculator's; every word
from 18 on is SYNC, IDLE, the address word or a message word, and has even parity. `admissible` is the admission of the request;
which counts LEN_MAX bounds in it is log 7 (DEDUCED). -/
def Obligations.TransmissionInvariants : Prop :=
  ∀ (numeric : Bool) (a fn L : Nat) (s t : State), admissible (.transmit numeric a fn L) s →
    exec (.transmit numeric a fn L) s = .next t →
    (18 < t.res.count ∧ (t.res.count - 18) % 17 = 0) ∧
    (∀ k, 18 ≤ k → k < t.res.count → (k - 18) % 17 = 0 → OutSpace.read t.out k = some Config.SYNC) ∧
    (¬ ((2045056 ≤ a ∧ a ≤ 2045063) ∧ fn = 2) →
      ∀ k < t.res.count, OutSpace.read t.out k = some Config.SYNC → 18 ≤ k ∧ (k - 18) % 17 = 0) ∧
    OutSpace.read t.out (18 + 1 + (a % 8) * 2) =
      some (codewordOf (addressData (BitVec.ofNat 21 a) (BitVec.ofNat 2 fn))) ∧
    (∃ u, exec (if numeric then .numlen a L else .textlen a L) s = .next u ∧ u.res.status = 0#2 ∧
      u.res.count = t.res.count) ∧
    (∀ k, 18 ≤ k → k < t.res.count → ∃ w, OutSpace.read t.out k = some w ∧ popcount w % 2 = 0 ∧
      (w = Config.SYNC ∨ w = Config.IDLE ∨ w = codewordOf (addressData (BitVec.ofNat 21 a) (BitVec.ofNat 2 fn)) ∨
        ∃ f : Field20, w = codewordOf (1#1 ++ f)))

/-- R109: the calculator's count, from any state with the same bound, is the number of words the assembler writes for the
same arguments: the count it reports, the indices it writes and, on storage where nothing was written, the number of words there.
That the calculator ends `OK` under a bounded LEN_MAX rests on log 7 (DEDUCED). -/
def Obligations.LengthAgreement : Prop :=
  ∀ (numeric : Bool) (a fn L : Nat) (s t u v : State), admissible (.transmit numeric a fn L) s →
    exec (.transmit numeric a fn L) s = .next t → u.params = s.params →
    exec (if numeric then .numlen a L else .textlen a L) u = .next v →
    v.res.status = 0#2 ∧ v.res.count = t.res.count ∧
    (∀ k, (OutSpace.read t.out k).isSome = (decide (k < v.res.count) || (OutSpace.read s.out k).isSome)) ∧
    (s.out = [] → t.out.length = v.res.count)

/-- The order of R104: after k of the seven steps `PHASE` is the k-th value after `S1_PREAMBLE`, whatever the request, so each value is
visited once, none is skipped. -/
def Obligations.PhasesInOrder : Prop :=
  ∀ (s : State) (k : Nat), k ≤ 7 → (loop k phaseStep (startTransmission s)).assembler.phase =
    [Phase.s1Preamble, .s2Sync, .s3Prefix, .s4Address, .s5Message, .s6End, .s7Pad, .done].getD k .done

/-- The padding of R101, from any point of a batch: fewer than 17 words, all IDLE, at `OUTPTR` on, after which the words from the first
SYNC on are a multiple of 17; none when they already are; every other word is as before. -/
def Obligations.PaddingCompletesTheBatch : Prop :=
  ∀ s : State, s.assembler.start ≤ s.assembler.outptr →
    let t := padStep s
    t.assembler.start = s.assembler.start ∧ s.assembler.outptr ≤ t.assembler.outptr ∧
    t.assembler.outptr < s.assembler.outptr + 17 ∧ (t.assembler.outptr - t.assembler.start) % 17 = 0 ∧
    ((s.assembler.outptr - s.assembler.start) % 17 = 0 → t.assembler.outptr = s.assembler.outptr) ∧
    (∀ k, OutSpace.read t.out k = if s.assembler.outptr ≤ k ∧ k < t.assembler.outptr then some Config.IDLE
      else OutSpace.read s.out k)

/-- TRANSMIT changes nothing but its request registers, the result, the working registers of its components, and the words of OUT
below its count; nothing of OUT when it does not end `OK` (R29, R36, R121). That `NW` is as before is the model's (log 17, DEDUCED:
the capacity check does not write it). That the request registers it does not read keep their values is the model's choice (log 8,
DESIGN CHOICE), and so is that the working registers it does not write keep theirs (log 3, DESIGN CHOICE). -/
def Obligations.TransmitFrame : Prop :=
  ∀ (numeric : Bool) (a fn L : Nat) (s t : State), exec (.transmit numeric a fn L) s = .next t →
    t = { s with req := { s.req with op := t.req.op, numeric := t.req.numeric, address := t.req.address,
                                     function := t.req.function, length := t.req.length },
                 res := t.res, checksum := t.checksum, packer := t.packer, encoder := t.encoder,
                 assembler := t.assembler, out := t.out, freeIndex := t.freeIndex } ∧
    (∀ k, layoutWords numeric a L ≤ k ∨ t.res.status ≠ 0#2 → OutSpace.read t.out k = OutSpace.read s.out k)

/-! The Length Calculator, NOP. -/

/-- R105: ADDROFF completes on every 21-bit address with twice its frame number, which is one of 0, 2, ..., 14 and does not depend
on bits 20..3; nothing else changes but its request registers. That the request registers it does not read keep their values is the
model's choice (log 8, DESIGN CHOICE), and so is that the working registers it does not write keep theirs (log 3, DESIGN CHOICE). -/
def Obligations.AddroffCompletes : Prop :=
  ∀ (s : State) (a : Nat), a < 2 ^ 21 → ∃ v : Word,
    exec (.addroff a) s = .next { s with
      req := { s.req with op := 7#4, address := BitVec.ofNat 21 a }
      res := ⟨0#2, 0#4, v, 2 * (a % 8)⟩
      freeIndex := s.freeIndex + 1 }

/-- R106, R107, R108: TEXTLEN and NUMLEN complete on every 21-bit address and every length for which the length and the word count
are within LEN_MAX (that LEN_MAX bounds these two and nothing else is log 7, DEDUCED), with the formula's value, which is 18 + 17B
with B at least 1; nothing else changes but their request registers and `NW`. That the request registers they do not read keep their
values is the model's choice (log 8, DESIGN CHOICE), and so is that the working registers they do not write keep theirs (log 3,
DESIGN CHOICE). -/
def Obligations.SizingFormula : Prop :=
  ∀ (numeric : Bool) (i : Instr) (s : State) (a L : Nat), i = (if numeric then .numlen a L else .textlen a L) → a < 2 ^ 21 →
    let n := (a % 8) * 2 + 1 + (L * (if numeric then 4 else 7) + 20 - 1) / 20 + 1
    let padded := (n + 16 - 1) / 16 * 16
    let words := padded + padded / 16 + 18
    within L s.params.lenMax → within words s.params.lenMax →
    (∃ B, 1 ≤ B ∧ words = 18 + 17 * B) ∧
    ∃ v : Word, exec i s = .next { s with
      req := { s.req with op := if numeric then 9#4 else 8#4, address := BitVec.ofNat 21 a, length := L }
      res := ⟨0#2, 0#4, v, words⟩
      calculator := ⟨words⟩
      freeIndex := s.freeIndex + 1 }

/-- R110: the count is 18 + 17 * ceil_div(n, 16) with n = 2f + 2 + m, and the largest messages that fit one batch are the table's. -/
def Obligations.OneBatchLimits : Prop :=
  (∀ (numeric : Bool) (a : BitVec 21) (L : Nat), transmissionWords numeric a L =
    18 + 17 * ((2 * (a.toNat % 8) + 2 + messageWords numeric L + 15) / 16)) ∧
  (∀ (a : BitVec 21) (L : Nat), transmissionWords false a L = 35 ↔
    L ≤ [40, 34, 28, 22, 17, 11, 5, 0].getD (a.toNat % 8) 0) ∧
  (∀ (a : BitVec 21) (L : Nat), transmissionWords true a L = 35 ↔ L ≤ 5 * (14 - 2 * (a.toNat % 8)))

/-- The bound of R135: storage for frame 7 in text mode holds any message of that length, in either mode, at any address. -/
def Obligations.WorstFrameBoundSuffices : Prop :=
  ∀ (numeric : Bool) (a fn L c : Nat) (s : State), a < 2 ^ 21 → fn < 2 ^ 2 → s.params.lenMax = none → s.outCapacity = some c →
    18 + 17 * ((14 + 2 + (7 * L + 19) / 20 + 15) / 16) ≤ c →
    ∃ t, exec (.transmit numeric a fn L) s = .next t ∧ t.res.status = 0#2 ∧ t.res.count ≤ c

/-- NOP completes in every state: status `OK`, code 0, the value and the count unspecified, nothing else but `REQ.op` (R61). That
the request registers it does not read keep their values is the model's choice (log 8, DESIGN CHOICE), and so is that the working
registers it does not write keep theirs (log 3, DESIGN CHOICE). -/
def Obligations.NopCompletes : Prop :=
  ∀ s : State, ∃ (v : Word) (c : Nat), exec .nop s = .next { s with
    req := { s.req with op := 10#4 }, res := ⟨0#2, 0#4, v, c⟩, freeIndex := s.freeIndex + 1 }

/-- The register-only operations touch no space and no register of a component they do not use (R29, R35): on every path OUT, the
encoders' and the assembler's registers are as before; the Checksum Unit's but for CRC and CODEWORD, the packer's but for CODEWORD,
`NW` but for TEXTLEN and NUMLEN. That working registers no operation in question writes keep their values is the model's choice (log
3, DESIGN CHOICE). -/
def Obligations.RegisterOperationsFrame : Prop :=
  ∀ (i : Instr) (s t : State), i.isRequest = true → (∀ o L, i ≠ .text o L ∧ i ≠ .numeric o L) →
    (∀ num a fn L, i ≠ .transmit num a fn L) → exec i s = .next t →
    t = { s with req := t.req, res := t.res, checksum := t.checksum, packer := t.packer, calculator := t.calculator,
                 freeIndex := t.freeIndex } ∧
    ((∀ d, i ≠ .crc d ∧ i ≠ .codeword d) → t.checksum = s.checksum) ∧ ((∀ d, i ≠ .codeword d) → t.packer = s.packer) ∧
    ((∀ a L, i ≠ .textlen a L ∧ i ≠ .numlen a L) → t.calculator = s.calculator)

/-! Outcomes. -/

/-- Every instruction answers a next state, and a request ends with a legal result pair; one that is admissible ends `OK`
(R113, R114). That a request which ends `REFUSED` or `FAULT` is a next state too is log 9 (DEDUCED); that the five word formats
answer one, by the sink's sending of the word, is log 10 (DESIGN CHOICE); which counts LEN_MAX bounds is log 7 (DEDUCED). -/
def Obligations.EveryInstructionCompletes : Prop :=
  ∀ (i : Instr) (s : State), ∃ t, exec i s = .next t ∧ (i.isRequest = true → t.res.legal = true) ∧
    (i.isRequest = true → admissible i s → t.res.status = 0#2 ∧ t.res.code = 0#4)

/-- No step stops the machine: from every state, whatever is pending, it answers a next state (R122, R132: after any outcome the block
is ready for the next request, and with none it waits; logs 5, 9 and 13). -/
def Obligations.EveryStepAnswersANextState : Prop :=
  ∀ s : State, ∃ t, step s = .next t

/-- The checks of a presented request, in the order of R120: a reserved operation number; else an operand too wide; else a length or
word count above LEN_MAX; else too little capacity; else it ends `OK`. The first that applies decides status and code (R114 to
R118). What LEN_MAX is compared with is log 7 (DEDUCED); that each outcome is a next state is log 9 (DEDUCED). The event list, and
the capacity that comes with the request, are the model's (logs 5 and 6, DESIGN CHOICE). -/
def Obligations.ChecksInOrder : Prop :=
  ∀ (s : State) (ports : Ports) (message : List Byte) (capacity : Option Nat) (rest : List Event),
    s.inbox = .request ports message capacity :: rest →
    (11 ≤ ports.op.toNat → ∃ t, step s = .next t ∧ t.res.status = 1#2 ∧ t.res.code = 1#4) ∧
    (∀ i, decode (.request ports) = .instr i → ∃ t, step s = .next t ∧
      (i.wellFormed = false → t.res.status = 1#2 ∧ t.res.code = 2#4) ∧
      (i.wellFormed = true → (∃ n ∈ i.boundedCounts, ¬ within n s.params.lenMax) → t.res.status = 1#2 ∧ t.res.code = 3#4) ∧
      (i.wellFormed = true → (∀ n ∈ i.boundedCounts, within n s.params.lenMax) → ¬ within i.wordsWritten capacity →
        t.res.status = 2#2 ∧ t.res.code = 1#4) ∧
      (i.wellFormed = true → (∀ n ∈ i.boundedCounts, within n s.params.lenMax) → within i.wordsWritten capacity →
        t.res.status = 0#2 ∧ t.res.code = 0#4)) ∧
    (ports.op.toNat ≤ 10 → ∃ i, decode (.request ports) = .instr i)

/-- R117: an operation that writes words compares their number with the capacity before the first; below it,
`OutputOverrun` and nothing written; otherwise it ends `OK` and every word it wrote is within the capacity; without a capacity the
fault never occurs. The hypotheses put the request inside the bound; what LEN_MAX is compared with is log 7 (DEDUCED). -/
def Obligations.CapacityIsAPrecondition : Prop :=
  ∀ (i : Instr) (s : State), i.wellFormed = true → (∀ n ∈ i.boundedCounts, within n s.params.lenMax) →
    (∃ o L, i = .text o L ∨ i = .numeric o L) ∨ (∃ num a fn L, i = .transmit num a fn L) →
    ∃ t, exec i s = .next t ∧
      (∀ c, s.outCapacity = some c → c < i.wordsWritten → t.res.status = 2#2 ∧ t.res.code = 1#4 ∧ t.out = s.out) ∧
      (∀ c, s.outCapacity = some c → i.wordsWritten ≤ c → t.res.status = 0#2 ∧
        ∀ k, OutSpace.read t.out k ≠ OutSpace.read s.out k → k < c) ∧
      (s.outCapacity = none → t.res.status = 0#2)

/-- R121: a request that ends `FAULT` or `REFUSED` has written the status and the code, left the value and the count unspecified,
and left OUT and MSG as they were, and the next event is the next one. That the request registers too are as they were is the
model's choice (log 8), and so is that the working registers are (log 3, both DESIGN CHOICE). So too for a reserved operation
number, whose request is only taken off the list, with its bytes placed (log 12) and its capacity in force (log 6). -/
def Obligations.RejectionHasNoOtherEffect : Prop :=
  (∀ (i : Instr) (s t : State), i.isRequest = true → exec i s = .next t → t.res.status ≠ 0#2 →
    ∃ (st : BitVec 2) (code : BitVec 4) (v : Word) (c : Nat),
      t = { s with res := ⟨st, code, v, c⟩, freeIndex := s.freeIndex + 1 }) ∧
  (∀ (s : State) (ports : Ports) (message : List Byte) (capacity : Option Nat) (rest : List Event),
    s.inbox = .request ports message capacity :: rest → 11 ≤ ports.op.toNat →
    ∃ (m : Memory) (v : Word) (c : Nat), (∀ k, Memory.read m k = (message[k]?).getD (Memory.read s.msg k)) ∧ step s = .next { s with
      inbox := rest, msg := m, outCapacity := capacity, res := ⟨1#2, 1#4, v, c⟩, freeIndex := s.freeIndex + 1 })

/-- No persistent state (R11, R28, R122): the outcome of an operation depends on its operands, the message bytes it reads, the bound
and the capacity alone, whatever every register and OUT held before. -/
def Obligations.ResultsDependOnTheRequestAlone : Prop :=
  ∀ (i : Instr) (s u t v : State), i.isRequest = true → u.params = s.params → u.outCapacity = s.outCapacity →
    (∀ k < i.bytesRead, Memory.read u.msg k = Memory.read s.msg k) → exec i s = .next t → exec i u = .next v →
    v.res.status = t.res.status ∧ v.res.code = t.res.code ∧
    (t.res.status = 0#2 → i.returnsValue = true → v.res.value = t.res.value) ∧
    (t.res.status = 0#2 → i.returnsCount = true → v.res.count = t.res.count) ∧
    (t.res.status = 0#2 → ∀ k < i.wordsWritten, OutSpace.read v.out k = OutSpace.read t.out k)

/-! Reset of the block. -/

/-- The first half of R129: a reset between two operations does not change the outcome of the second. That a reset leaves OUT and
MSG as they are, and so the equality of every word of OUT afterwards, is the model's choice (log 18). Reserved operation numbers are
covered by RejectionHasNoOtherEffect. The events are the model's (log 5). -/
def Obligations.ResetBetweenOperationsIsInvisible : Prop :=
  ∀ (s u : State) (ports : Ports) (message : List Byte) (capacity : Option Nat) (rest : List Event) (i : Instr),
    s.inbox = .reset :: .request ports message capacity :: rest → decode (.request ports) = .instr i →
    u = { s with inbox := .request ports message capacity :: rest } →
    ∃ r t v, step s = .next r ∧ r.out = s.out ∧ r.msg = s.msg ∧ step r = .next t ∧ step u = .next v ∧
      t.res.status = v.res.status ∧ t.res.code = v.res.code ∧ t.msg = v.msg ∧ t.inbox = v.inbox ∧
      (v.res.status = 0#2 → i.returnsValue = true → t.res.value = v.res.value) ∧
      (v.res.status = 0#2 → i.returnsCount = true → t.res.count = v.res.count) ∧
      (∀ k, OutSpace.read t.out k = OutSpace.read v.out k ∧ t.outWord k = v.outWord k)

/-- The second half of R129: a reset in the middle of an operation reports no result of it: every register of the block is as after
a reset alone (whose values are log 1, DESIGN CHOICE), whatever request was abandoned. Every word of OUT then holds a free value,
new ones (U13, "any value"; log 18). The caller's message bytes are in MSG and the capacity is the request's (logs 5, 6, 12, 18),
and the block goes on with the next event. -/
def Obligations.MidOperationResetAbandons : Prop :=
  ∀ (s : State) (ports : Ports) (message : List Byte) (capacity : Option Nat) (rest : List Event),
    s.inbox = .resetDuring ports message capacity :: rest →
    ∃ t u, step s = .next t ∧ step { s with inbox := .reset :: rest } = .next u ∧ t.res = u.res ∧
      t = { u with msg := t.msg, outCapacity := capacity, out := [], outEpoch := s.outEpoch + 1 } ∧ t.inbox = rest ∧
      (∀ k, t.outWord k = Config.freeWord (s.outEpoch + 1) k) ∧
      (∀ k, Memory.read t.msg k = (message[k]?).getD (Memory.read s.msg k))

/-! The sink. -/

/-- The five word formats complete in every state: the sink puts the word's 32 bits on the line, most significant first, complemented
in the normal polarity and as they are in the inverted one, moves to the next word, and nothing else changes (R38, R41, R43, R44, R46;
that a word's meaning is the sink's sending of it is the model's choice, log 10). -/
def Obligations.WordFormatsSend : Prop :=
  let sent (w : Word) (s : State) : State := { s with sink := ⟨s.sink.index + 1, s.sink.count,
    s.sink.line ++ (List.range 32).map fun j => if s.params.polarity = .normal then !w.getLsbD (31 - j) else w.getLsbD (31 - j)⟩ }
  ∀ s : State, exec .sync s = .next (sent 0x7CD215D8#32 s) ∧ exec .idle s = .next (sent 0x7A89C197#32 s) ∧
    exec .preambleWord s = .next (sent 0xAAAAAAAA#32 s) ∧
    (∀ a f c p, exec (.addressWord a f c p) s = .next (sent (BitVec.ofNat 32
      (a.toNat * 2 ^ 13 + f.toNat * 2 ^ 11 + c.toNat * 2 + p.toNat)) s)) ∧
    (∀ d c p, exec (.messageWord d c p) s = .next (sent (BitVec.ofNat 32
      (2 ^ 31 + d.toNat * 2 ^ 11 + c.toNat * 2 + p.toNat)) s))

/-- The whole buffer on the line (R38): a sink at word 0 of N words, told N times to take a word, has put bit 31 - j of what OUT[k]
holds at place 32k + j after what the line had carried, complemented in the normal polarity, and has left OUT as it was. The sink's
fields and events are the model's (logs 5 and 11), and so is the word formats' meaning (log 10, both DESIGN CHOICE); what an
unwritten word holds is a free value (log 13). -/
def Obligations.SinkSendsTheBuffer : Prop :=
  ∀ (s : State) (N : Nat) (rest : List Event), s.sink.index = 0 → s.sink.count = N →
    s.inbox = List.replicate N .sinkWord ++ rest →
    ∃ t, Host.Core.run core N s = .next t ∧ t.inbox = rest ∧ t.out = s.out ∧ t.outEpoch = s.outEpoch ∧
      t.sink.line.length = s.sink.line.length + 32 * N ∧ (∀ p < s.sink.line.length, t.sink.line[p]? = s.sink.line[p]?) ∧
      ∀ k < N, ∀ j < 32, t.sink.line[s.sink.line.length + 32 * k + j]? =
        some (if s.params.polarity = .normal then !(s.outWord k).getLsbD (31 - j) else (s.outWord k).getLsbD (31 - j))

/-! The machine as a whole. -/

/-- No instruction changes what is the caller's: MSG, the pending events, the parameters, the capacity (R12, R23, R29, R31).
That the word formats move the sink and change nothing else is the model's choice (log 10). -/
def Obligations.CallersSideIsUnchanged : Prop :=
  ∀ (i : Instr) (s t : State), exec i s = .next t →
    t.msg = s.msg ∧ t.inbox = s.inbox ∧ t.params = s.params ∧ t.outCapacity = s.outCapacity ∧
    (i.isRequest = true → t.sink = s.sink) ∧ (i.isRequest = false → t = { s with sink := t.sink })

/-- No step changes the parameters (R8, R23: nothing configures the block; that LEN_MAX and POLARITY are fields no step changes is the
model's choice, log 6), and MSG changes by the presenting of a request alone (R31: the block never writes it; that the caller has no
other event that writes it, that its bytes are placed with a request, and that a reset leaves it are the model's choice, logs 5, 12
and 18; all DESIGN CHOICE). -/
def Obligations.ParametersNeverChange : Prop :=
  ∀ s t : State, step s = .next t → t.params = s.params ∧
    ((∀ p m c rest, s.inbox ≠ .request p m c :: rest ∧ s.inbox ≠ .resetDuring p m c :: rest) →
      ∀ k, Memory.read t.msg k = Memory.read s.msg k)

/-- The state after reset is a good one. R28 and R130 leave every register unspecified at power-on: that the values lie in the
registers' ranges and the result pair is a legal one is the model's choice of reset values (log 1). That the memories list nothing
is logs 12 and 13, the sink's start log 11 (DESIGN CHOICE). -/
def Obligations.ResetIsGood : Prop := State.reset.good = true

/-- Every step keeps a good state: both spaces stay in canonical form, the result pair stays one of the legal ones (R13, R114 to
R116), the working registers stay in the ranges of R14, R16, R18, R19, R21, the sink stays within its buffer. At the two reset
events this rests on the values a reset gives the registers (logs 1 and 18, DESIGN CHOICE). The sink and its events are logs 5, 10
and 11, the canonical forms of the memories logs 12 and 13 (DESIGN CHOICE). -/
def Obligations.StepKeepsGood : Prop :=
  ∀ s t : State, s.good = true → step s = .next t → t.good = true
end

