-- ==== Sys2Proof/Laws/State.lean ====
section
/-! SUPPORT. What each setter does to each field of the state, true by rfl; `eta` lemmas for writing a part back. -/

namespace Sys2Proof.Machine

variable (s : State)

/-! `State.setReq` -/

@[simp] theorem State.setReq_req (x : RequestRegs) : (s.setReq x).req = x := rfl
@[simp] theorem State.setReq_res (x : RequestRegs) : (s.setReq x).res = s.res := rfl
@[simp] theorem State.setReq_checksum (x : RequestRegs) : (s.setReq x).checksum = s.checksum := rfl
@[simp] theorem State.setReq_packer (x : RequestRegs) : (s.setReq x).packer = s.packer := rfl
@[simp] theorem State.setReq_encoder (x : RequestRegs) : (s.setReq x).encoder = s.encoder := rfl
@[simp] theorem State.setReq_assembler (x : RequestRegs) : (s.setReq x).assembler = s.assembler := rfl
@[simp] theorem State.setReq_calculator (x : RequestRegs) : (s.setReq x).calculator = s.calculator := rfl
@[simp] theorem State.setReq_msg (x : RequestRegs) : (s.setReq x).msg = s.msg := rfl
@[simp] theorem State.setReq_out (x : RequestRegs) : (s.setReq x).out = s.out := rfl
@[simp] theorem State.setReq_outCapacity (x : RequestRegs) : (s.setReq x).outCapacity = s.outCapacity := rfl
@[simp] theorem State.setReq_params (x : RequestRegs) : (s.setReq x).params = s.params := rfl
@[simp] theorem State.setReq_sink (x : RequestRegs) : (s.setReq x).sink = s.sink := rfl
@[simp] theorem State.setReq_inbox (x : RequestRegs) : (s.setReq x).inbox = s.inbox := rfl
@[simp] theorem State.setReq_freeIndex (x : RequestRegs) : (s.setReq x).freeIndex = s.freeIndex := rfl
@[simp] theorem State.setReq_outEpoch (x : RequestRegs) : (s.setReq x).outEpoch = s.outEpoch := rfl
@[simp] theorem State.setReq_self : s.setReq s.req = s := rfl
@[simp] theorem State.setReq_setReq (x y : RequestRegs) : (s.setReq x).setReq y = s.setReq y := rfl

/-! `State.setRes` -/

@[simp] theorem State.setRes_req (x : ResultRegs) : (s.setRes x).req = s.req := rfl
@[simp] theorem State.setRes_res (x : ResultRegs) : (s.setRes x).res = x := rfl
@[simp] theorem State.setRes_checksum (x : ResultRegs) : (s.setRes x).checksum = s.checksum := rfl
@[simp] theorem State.setRes_packer (x : ResultRegs) : (s.setRes x).packer = s.packer := rfl
@[simp] theorem State.setRes_encoder (x : ResultRegs) : (s.setRes x).encoder = s.encoder := rfl
@[simp] theorem State.setRes_assembler (x : ResultRegs) : (s.setRes x).assembler = s.assembler := rfl
@[simp] theorem State.setRes_calculator (x : ResultRegs) : (s.setRes x).calculator = s.calculator := rfl
@[simp] theorem State.setRes_msg (x : ResultRegs) : (s.setRes x).msg = s.msg := rfl
@[simp] theorem State.setRes_out (x : ResultRegs) : (s.setRes x).out = s.out := rfl
@[simp] theorem State.setRes_outCapacity (x : ResultRegs) : (s.setRes x).outCapacity = s.outCapacity := rfl
@[simp] theorem State.setRes_params (x : ResultRegs) : (s.setRes x).params = s.params := rfl
@[simp] theorem State.setRes_sink (x : ResultRegs) : (s.setRes x).sink = s.sink := rfl
@[simp] theorem State.setRes_inbox (x : ResultRegs) : (s.setRes x).inbox = s.inbox := rfl
@[simp] theorem State.setRes_freeIndex (x : ResultRegs) : (s.setRes x).freeIndex = s.freeIndex := rfl
@[simp] theorem State.setRes_outEpoch (x : ResultRegs) : (s.setRes x).outEpoch = s.outEpoch := rfl
@[simp] theorem State.setRes_self : s.setRes s.res = s := rfl
@[simp] theorem State.setRes_setRes (x y : ResultRegs) : (s.setRes x).setRes y = s.setRes y := rfl

/-! `State.setChecksum` -/

@[simp] theorem State.setChecksum_req (x : ChecksumRegs) : (s.setChecksum x).req = s.req := rfl
@[simp] theorem State.setChecksum_res (x : ChecksumRegs) : (s.setChecksum x).res = s.res := rfl
@[simp] theorem State.setChecksum_checksum (x : ChecksumRegs) : (s.setChecksum x).checksum = x := rfl
@[simp] theorem State.setChecksum_packer (x : ChecksumRegs) : (s.setChecksum x).packer = s.packer := rfl
@[simp] theorem State.setChecksum_encoder (x : ChecksumRegs) : (s.setChecksum x).encoder = s.encoder := rfl
@[simp] theorem State.setChecksum_assembler (x : ChecksumRegs) : (s.setChecksum x).assembler = s.assembler := rfl
@[simp] theorem State.setChecksum_calculator (x : ChecksumRegs) : (s.setChecksum x).calculator = s.calculator := rfl
@[simp] theorem State.setChecksum_msg (x : ChecksumRegs) : (s.setChecksum x).msg = s.msg := rfl
@[simp] theorem State.setChecksum_out (x : ChecksumRegs) : (s.setChecksum x).out = s.out := rfl
@[simp] theorem State.setChecksum_outCapacity (x : ChecksumRegs) : (s.setChecksum x).outCapacity = s.outCapacity := rfl
@[simp] theorem State.setChecksum_params (x : ChecksumRegs) : (s.setChecksum x).params = s.params := rfl
@[simp] theorem State.setChecksum_sink (x : ChecksumRegs) : (s.setChecksum x).sink = s.sink := rfl
@[simp] theorem State.setChecksum_inbox (x : ChecksumRegs) : (s.setChecksum x).inbox = s.inbox := rfl
@[simp] theorem State.setChecksum_freeIndex (x : ChecksumRegs) : (s.setChecksum x).freeIndex = s.freeIndex := rfl
@[simp] theorem State.setChecksum_outEpoch (x : ChecksumRegs) : (s.setChecksum x).outEpoch = s.outEpoch := rfl
@[simp] theorem State.setChecksum_self : s.setChecksum s.checksum = s := rfl
@[simp] theorem State.setChecksum_setChecksum (x y : ChecksumRegs) : (s.setChecksum x).setChecksum y = s.setChecksum y := rfl

/-! `State.setPacker` -/

@[simp] theorem State.setPacker_req (x : PackerRegs) : (s.setPacker x).req = s.req := rfl
@[simp] theorem State.setPacker_res (x : PackerRegs) : (s.setPacker x).res = s.res := rfl
@[simp] theorem State.setPacker_checksum (x : PackerRegs) : (s.setPacker x).checksum = s.checksum := rfl
@[simp] theorem State.setPacker_packer (x : PackerRegs) : (s.setPacker x).packer = x := rfl
@[simp] theorem State.setPacker_encoder (x : PackerRegs) : (s.setPacker x).encoder = s.encoder := rfl
@[simp] theorem State.setPacker_assembler (x : PackerRegs) : (s.setPacker x).assembler = s.assembler := rfl
@[simp] theorem State.setPacker_calculator (x : PackerRegs) : (s.setPacker x).calculator = s.calculator := rfl
@[simp] theorem State.setPacker_msg (x : PackerRegs) : (s.setPacker x).msg = s.msg := rfl
@[simp] theorem State.setPacker_out (x : PackerRegs) : (s.setPacker x).out = s.out := rfl
@[simp] theorem State.setPacker_outCapacity (x : PackerRegs) : (s.setPacker x).outCapacity = s.outCapacity := rfl
@[simp] theorem State.setPacker_params (x : PackerRegs) : (s.setPacker x).params = s.params := rfl
@[simp] theorem State.setPacker_sink (x : PackerRegs) : (s.setPacker x).sink = s.sink := rfl
@[simp] theorem State.setPacker_inbox (x : PackerRegs) : (s.setPacker x).inbox = s.inbox := rfl
@[simp] theorem State.setPacker_freeIndex (x : PackerRegs) : (s.setPacker x).freeIndex = s.freeIndex := rfl
@[simp] theorem State.setPacker_outEpoch (x : PackerRegs) : (s.setPacker x).outEpoch = s.outEpoch := rfl
@[simp] theorem State.setPacker_self : s.setPacker s.packer = s := rfl
@[simp] theorem State.setPacker_setPacker (x y : PackerRegs) : (s.setPacker x).setPacker y = s.setPacker y := rfl

/-! `State.setEncoder` -/

@[simp] theorem State.setEncoder_req (x : EncoderRegs) : (s.setEncoder x).req = s.req := rfl
@[simp] theorem State.setEncoder_res (x : EncoderRegs) : (s.setEncoder x).res = s.res := rfl
@[simp] theorem State.setEncoder_checksum (x : EncoderRegs) : (s.setEncoder x).checksum = s.checksum := rfl
@[simp] theorem State.setEncoder_packer (x : EncoderRegs) : (s.setEncoder x).packer = s.packer := rfl
@[simp] theorem State.setEncoder_encoder (x : EncoderRegs) : (s.setEncoder x).encoder = x := rfl
@[simp] theorem State.setEncoder_assembler (x : EncoderRegs) : (s.setEncoder x).assembler = s.assembler := rfl
@[simp] theorem State.setEncoder_calculator (x : EncoderRegs) : (s.setEncoder x).calculator = s.calculator := rfl
@[simp] theorem State.setEncoder_msg (x : EncoderRegs) : (s.setEncoder x).msg = s.msg := rfl
@[simp] theorem State.setEncoder_out (x : EncoderRegs) : (s.setEncoder x).out = s.out := rfl
@[simp] theorem State.setEncoder_outCapacity (x : EncoderRegs) : (s.setEncoder x).outCapacity = s.outCapacity := rfl
@[simp] theorem State.setEncoder_params (x : EncoderRegs) : (s.setEncoder x).params = s.params := rfl
@[simp] theorem State.setEncoder_sink (x : EncoderRegs) : (s.setEncoder x).sink = s.sink := rfl
@[simp] theorem State.setEncoder_inbox (x : EncoderRegs) : (s.setEncoder x).inbox = s.inbox := rfl
@[simp] theorem State.setEncoder_freeIndex (x : EncoderRegs) : (s.setEncoder x).freeIndex = s.freeIndex := rfl
@[simp] theorem State.setEncoder_outEpoch (x : EncoderRegs) : (s.setEncoder x).outEpoch = s.outEpoch := rfl
@[simp] theorem State.setEncoder_self : s.setEncoder s.encoder = s := rfl
@[simp] theorem State.setEncoder_setEncoder (x y : EncoderRegs) : (s.setEncoder x).setEncoder y = s.setEncoder y := rfl

/-! `State.setAssembler` -/

@[simp] theorem State.setAssembler_req (x : AssemblerRegs) : (s.setAssembler x).req = s.req := rfl
@[simp] theorem State.setAssembler_res (x : AssemblerRegs) : (s.setAssembler x).res = s.res := rfl
@[simp] theorem State.setAssembler_checksum (x : AssemblerRegs) : (s.setAssembler x).checksum = s.checksum := rfl
@[simp] theorem State.setAssembler_packer (x : AssemblerRegs) : (s.setAssembler x).packer = s.packer := rfl
@[simp] theorem State.setAssembler_encoder (x : AssemblerRegs) : (s.setAssembler x).encoder = s.encoder := rfl
@[simp] theorem State.setAssembler_assembler (x : AssemblerRegs) : (s.setAssembler x).assembler = x := rfl
@[simp] theorem State.setAssembler_calculator (x : AssemblerRegs) : (s.setAssembler x).calculator = s.calculator := rfl
@[simp] theorem State.setAssembler_msg (x : AssemblerRegs) : (s.setAssembler x).msg = s.msg := rfl
@[simp] theorem State.setAssembler_out (x : AssemblerRegs) : (s.setAssembler x).out = s.out := rfl
@[simp] theorem State.setAssembler_outCapacity (x : AssemblerRegs) : (s.setAssembler x).outCapacity = s.outCapacity := rfl
@[simp] theorem State.setAssembler_params (x : AssemblerRegs) : (s.setAssembler x).params = s.params := rfl
@[simp] theorem State.setAssembler_sink (x : AssemblerRegs) : (s.setAssembler x).sink = s.sink := rfl
@[simp] theorem State.setAssembler_inbox (x : AssemblerRegs) : (s.setAssembler x).inbox = s.inbox := rfl
@[simp] theorem State.setAssembler_freeIndex (x : AssemblerRegs) : (s.setAssembler x).freeIndex = s.freeIndex := rfl
@[simp] theorem State.setAssembler_outEpoch (x : AssemblerRegs) : (s.setAssembler x).outEpoch = s.outEpoch := rfl
@[simp] theorem State.setAssembler_self : s.setAssembler s.assembler = s := rfl
@[simp] theorem State.setAssembler_setAssembler (x y : AssemblerRegs) : (s.setAssembler x).setAssembler y = s.setAssembler y := rfl

/-! `State.setCalculator` -/

@[simp] theorem State.setCalculator_req (x : CalculatorRegs) : (s.setCalculator x).req = s.req := rfl
@[simp] theorem State.setCalculator_res (x : CalculatorRegs) : (s.setCalculator x).res = s.res := rfl
@[simp] theorem State.setCalculator_checksum (x : CalculatorRegs) : (s.setCalculator x).checksum = s.checksum := rfl
@[simp] theorem State.setCalculator_packer (x : CalculatorRegs) : (s.setCalculator x).packer = s.packer := rfl
@[simp] theorem State.setCalculator_encoder (x : CalculatorRegs) : (s.setCalculator x).encoder = s.encoder := rfl
@[simp] theorem State.setCalculator_assembler (x : CalculatorRegs) : (s.setCalculator x).assembler = s.assembler := rfl
@[simp] theorem State.setCalculator_calculator (x : CalculatorRegs) : (s.setCalculator x).calculator = x := rfl
@[simp] theorem State.setCalculator_msg (x : CalculatorRegs) : (s.setCalculator x).msg = s.msg := rfl
@[simp] theorem State.setCalculator_out (x : CalculatorRegs) : (s.setCalculator x).out = s.out := rfl
@[simp] theorem State.setCalculator_outCapacity (x : CalculatorRegs) : (s.setCalculator x).outCapacity = s.outCapacity := rfl
@[simp] theorem State.setCalculator_params (x : CalculatorRegs) : (s.setCalculator x).params = s.params := rfl
@[simp] theorem State.setCalculator_sink (x : CalculatorRegs) : (s.setCalculator x).sink = s.sink := rfl
@[simp] theorem State.setCalculator_inbox (x : CalculatorRegs) : (s.setCalculator x).inbox = s.inbox := rfl
@[simp] theorem State.setCalculator_freeIndex (x : CalculatorRegs) : (s.setCalculator x).freeIndex = s.freeIndex := rfl
@[simp] theorem State.setCalculator_outEpoch (x : CalculatorRegs) : (s.setCalculator x).outEpoch = s.outEpoch := rfl
@[simp] theorem State.setCalculator_self : s.setCalculator s.calculator = s := rfl
@[simp] theorem State.setCalculator_setCalculator (x y : CalculatorRegs) : (s.setCalculator x).setCalculator y = s.setCalculator y := rfl

/-! `State.setMsg` -/

@[simp] theorem State.setMsg_req (x : Memory) : (s.setMsg x).req = s.req := rfl
@[simp] theorem State.setMsg_res (x : Memory) : (s.setMsg x).res = s.res := rfl
@[simp] theorem State.setMsg_checksum (x : Memory) : (s.setMsg x).checksum = s.checksum := rfl
@[simp] theorem State.setMsg_packer (x : Memory) : (s.setMsg x).packer = s.packer := rfl
@[simp] theorem State.setMsg_encoder (x : Memory) : (s.setMsg x).encoder = s.encoder := rfl
@[simp] theorem State.setMsg_assembler (x : Memory) : (s.setMsg x).assembler = s.assembler := rfl
@[simp] theorem State.setMsg_calculator (x : Memory) : (s.setMsg x).calculator = s.calculator := rfl
@[simp] theorem State.setMsg_msg (x : Memory) : (s.setMsg x).msg = x := rfl
@[simp] theorem State.setMsg_out (x : Memory) : (s.setMsg x).out = s.out := rfl
@[simp] theorem State.setMsg_outCapacity (x : Memory) : (s.setMsg x).outCapacity = s.outCapacity := rfl
@[simp] theorem State.setMsg_params (x : Memory) : (s.setMsg x).params = s.params := rfl
@[simp] theorem State.setMsg_sink (x : Memory) : (s.setMsg x).sink = s.sink := rfl
@[simp] theorem State.setMsg_inbox (x : Memory) : (s.setMsg x).inbox = s.inbox := rfl
@[simp] theorem State.setMsg_freeIndex (x : Memory) : (s.setMsg x).freeIndex = s.freeIndex := rfl
@[simp] theorem State.setMsg_outEpoch (x : Memory) : (s.setMsg x).outEpoch = s.outEpoch := rfl
@[simp] theorem State.setMsg_self : s.setMsg s.msg = s := rfl
@[simp] theorem State.setMsg_setMsg (x y : Memory) : (s.setMsg x).setMsg y = s.setMsg y := rfl

/-! `State.setOut` -/

@[simp] theorem State.setOut_req (x : OutSpace) : (s.setOut x).req = s.req := rfl
@[simp] theorem State.setOut_res (x : OutSpace) : (s.setOut x).res = s.res := rfl
@[simp] theorem State.setOut_checksum (x : OutSpace) : (s.setOut x).checksum = s.checksum := rfl
@[simp] theorem State.setOut_packer (x : OutSpace) : (s.setOut x).packer = s.packer := rfl
@[simp] theorem State.setOut_encoder (x : OutSpace) : (s.setOut x).encoder = s.encoder := rfl
@[simp] theorem State.setOut_assembler (x : OutSpace) : (s.setOut x).assembler = s.assembler := rfl
@[simp] theorem State.setOut_calculator (x : OutSpace) : (s.setOut x).calculator = s.calculator := rfl
@[simp] theorem State.setOut_msg (x : OutSpace) : (s.setOut x).msg = s.msg := rfl
@[simp] theorem State.setOut_out (x : OutSpace) : (s.setOut x).out = x := rfl
@[simp] theorem State.setOut_outCapacity (x : OutSpace) : (s.setOut x).outCapacity = s.outCapacity := rfl
@[simp] theorem State.setOut_params (x : OutSpace) : (s.setOut x).params = s.params := rfl
@[simp] theorem State.setOut_sink (x : OutSpace) : (s.setOut x).sink = s.sink := rfl
@[simp] theorem State.setOut_inbox (x : OutSpace) : (s.setOut x).inbox = s.inbox := rfl
@[simp] theorem State.setOut_freeIndex (x : OutSpace) : (s.setOut x).freeIndex = s.freeIndex := rfl
@[simp] theorem State.setOut_outEpoch (x : OutSpace) : (s.setOut x).outEpoch = s.outEpoch := rfl
@[simp] theorem State.setOut_self : s.setOut s.out = s := rfl
@[simp] theorem State.setOut_setOut (x y : OutSpace) : (s.setOut x).setOut y = s.setOut y := rfl

/-! `State.setOutCapacity` -/

@[simp] theorem State.setOutCapacity_req (x : Option Nat) : (s.setOutCapacity x).req = s.req := rfl
@[simp] theorem State.setOutCapacity_res (x : Option Nat) : (s.setOutCapacity x).res = s.res := rfl
@[simp] theorem State.setOutCapacity_checksum (x : Option Nat) : (s.setOutCapacity x).checksum = s.checksum := rfl
@[simp] theorem State.setOutCapacity_packer (x : Option Nat) : (s.setOutCapacity x).packer = s.packer := rfl
@[simp] theorem State.setOutCapacity_encoder (x : Option Nat) : (s.setOutCapacity x).encoder = s.encoder := rfl
@[simp] theorem State.setOutCapacity_assembler (x : Option Nat) : (s.setOutCapacity x).assembler = s.assembler := rfl
@[simp] theorem State.setOutCapacity_calculator (x : Option Nat) : (s.setOutCapacity x).calculator = s.calculator := rfl
@[simp] theorem State.setOutCapacity_msg (x : Option Nat) : (s.setOutCapacity x).msg = s.msg := rfl
@[simp] theorem State.setOutCapacity_out (x : Option Nat) : (s.setOutCapacity x).out = s.out := rfl
@[simp] theorem State.setOutCapacity_outCapacity (x : Option Nat) : (s.setOutCapacity x).outCapacity = x := rfl
@[simp] theorem State.setOutCapacity_params (x : Option Nat) : (s.setOutCapacity x).params = s.params := rfl
@[simp] theorem State.setOutCapacity_sink (x : Option Nat) : (s.setOutCapacity x).sink = s.sink := rfl
@[simp] theorem State.setOutCapacity_inbox (x : Option Nat) : (s.setOutCapacity x).inbox = s.inbox := rfl
@[simp] theorem State.setOutCapacity_freeIndex (x : Option Nat) : (s.setOutCapacity x).freeIndex = s.freeIndex := rfl
@[simp] theorem State.setOutCapacity_outEpoch (x : Option Nat) : (s.setOutCapacity x).outEpoch = s.outEpoch := rfl
@[simp] theorem State.setOutCapacity_self : s.setOutCapacity s.outCapacity = s := rfl
@[simp] theorem State.setOutCapacity_setOutCapacity (x y : Option Nat) : (s.setOutCapacity x).setOutCapacity y = s.setOutCapacity y := rfl

/-! `State.setSink` -/

@[simp] theorem State.setSink_req (x : SinkState) : (s.setSink x).req = s.req := rfl
@[simp] theorem State.setSink_res (x : SinkState) : (s.setSink x).res = s.res := rfl
@[simp] theorem State.setSink_checksum (x : SinkState) : (s.setSink x).checksum = s.checksum := rfl
@[simp] theorem State.setSink_packer (x : SinkState) : (s.setSink x).packer = s.packer := rfl
@[simp] theorem State.setSink_encoder (x : SinkState) : (s.setSink x).encoder = s.encoder := rfl
@[simp] theorem State.setSink_assembler (x : SinkState) : (s.setSink x).assembler = s.assembler := rfl
@[simp] theorem State.setSink_calculator (x : SinkState) : (s.setSink x).calculator = s.calculator := rfl
@[simp] theorem State.setSink_msg (x : SinkState) : (s.setSink x).msg = s.msg := rfl
@[simp] theorem State.setSink_out (x : SinkState) : (s.setSink x).out = s.out := rfl
@[simp] theorem State.setSink_outCapacity (x : SinkState) : (s.setSink x).outCapacity = s.outCapacity := rfl
@[simp] theorem State.setSink_params (x : SinkState) : (s.setSink x).params = s.params := rfl
@[simp] theorem State.setSink_sink (x : SinkState) : (s.setSink x).sink = x := rfl
@[simp] theorem State.setSink_inbox (x : SinkState) : (s.setSink x).inbox = s.inbox := rfl
@[simp] theorem State.setSink_freeIndex (x : SinkState) : (s.setSink x).freeIndex = s.freeIndex := rfl
@[simp] theorem State.setSink_outEpoch (x : SinkState) : (s.setSink x).outEpoch = s.outEpoch := rfl
@[simp] theorem State.setSink_self : s.setSink s.sink = s := rfl
@[simp] theorem State.setSink_setSink (x y : SinkState) : (s.setSink x).setSink y = s.setSink y := rfl

/-! `State.setInbox` -/

@[simp] theorem State.setInbox_req (x : List Event) : (s.setInbox x).req = s.req := rfl
@[simp] theorem State.setInbox_res (x : List Event) : (s.setInbox x).res = s.res := rfl
@[simp] theorem State.setInbox_checksum (x : List Event) : (s.setInbox x).checksum = s.checksum := rfl
@[simp] theorem State.setInbox_packer (x : List Event) : (s.setInbox x).packer = s.packer := rfl
@[simp] theorem State.setInbox_encoder (x : List Event) : (s.setInbox x).encoder = s.encoder := rfl
@[simp] theorem State.setInbox_assembler (x : List Event) : (s.setInbox x).assembler = s.assembler := rfl
@[simp] theorem State.setInbox_calculator (x : List Event) : (s.setInbox x).calculator = s.calculator := rfl
@[simp] theorem State.setInbox_msg (x : List Event) : (s.setInbox x).msg = s.msg := rfl
@[simp] theorem State.setInbox_out (x : List Event) : (s.setInbox x).out = s.out := rfl
@[simp] theorem State.setInbox_outCapacity (x : List Event) : (s.setInbox x).outCapacity = s.outCapacity := rfl
@[simp] theorem State.setInbox_params (x : List Event) : (s.setInbox x).params = s.params := rfl
@[simp] theorem State.setInbox_sink (x : List Event) : (s.setInbox x).sink = s.sink := rfl
@[simp] theorem State.setInbox_inbox (x : List Event) : (s.setInbox x).inbox = x := rfl
@[simp] theorem State.setInbox_freeIndex (x : List Event) : (s.setInbox x).freeIndex = s.freeIndex := rfl
@[simp] theorem State.setInbox_outEpoch (x : List Event) : (s.setInbox x).outEpoch = s.outEpoch := rfl
@[simp] theorem State.setInbox_self : s.setInbox s.inbox = s := rfl
@[simp] theorem State.setInbox_setInbox (x y : List Event) : (s.setInbox x).setInbox y = s.setInbox y := rfl

/-! `State.setFreeIndex` -/

@[simp] theorem State.setFreeIndex_req (x : Nat) : (s.setFreeIndex x).req = s.req := rfl
@[simp] theorem State.setFreeIndex_res (x : Nat) : (s.setFreeIndex x).res = s.res := rfl
@[simp] theorem State.setFreeIndex_checksum (x : Nat) : (s.setFreeIndex x).checksum = s.checksum := rfl
@[simp] theorem State.setFreeIndex_packer (x : Nat) : (s.setFreeIndex x).packer = s.packer := rfl
@[simp] theorem State.setFreeIndex_encoder (x : Nat) : (s.setFreeIndex x).encoder = s.encoder := rfl
@[simp] theorem State.setFreeIndex_assembler (x : Nat) : (s.setFreeIndex x).assembler = s.assembler := rfl
@[simp] theorem State.setFreeIndex_calculator (x : Nat) : (s.setFreeIndex x).calculator = s.calculator := rfl
@[simp] theorem State.setFreeIndex_msg (x : Nat) : (s.setFreeIndex x).msg = s.msg := rfl
@[simp] theorem State.setFreeIndex_out (x : Nat) : (s.setFreeIndex x).out = s.out := rfl
@[simp] theorem State.setFreeIndex_outCapacity (x : Nat) : (s.setFreeIndex x).outCapacity = s.outCapacity := rfl
@[simp] theorem State.setFreeIndex_params (x : Nat) : (s.setFreeIndex x).params = s.params := rfl
@[simp] theorem State.setFreeIndex_sink (x : Nat) : (s.setFreeIndex x).sink = s.sink := rfl
@[simp] theorem State.setFreeIndex_inbox (x : Nat) : (s.setFreeIndex x).inbox = s.inbox := rfl
@[simp] theorem State.setFreeIndex_freeIndex (x : Nat) : (s.setFreeIndex x).freeIndex = x := rfl
@[simp] theorem State.setFreeIndex_outEpoch (x : Nat) : (s.setFreeIndex x).outEpoch = s.outEpoch := rfl
@[simp] theorem State.setFreeIndex_self : s.setFreeIndex s.freeIndex = s := rfl
@[simp] theorem State.setFreeIndex_setFreeIndex (x y : Nat) : (s.setFreeIndex x).setFreeIndex y = s.setFreeIndex y := rfl

/-! `State.setOutEpoch` -/

@[simp] theorem State.setOutEpoch_req (x : Nat) : (s.setOutEpoch x).req = s.req := rfl
@[simp] theorem State.setOutEpoch_res (x : Nat) : (s.setOutEpoch x).res = s.res := rfl
@[simp] theorem State.setOutEpoch_checksum (x : Nat) : (s.setOutEpoch x).checksum = s.checksum := rfl
@[simp] theorem State.setOutEpoch_packer (x : Nat) : (s.setOutEpoch x).packer = s.packer := rfl
@[simp] theorem State.setOutEpoch_encoder (x : Nat) : (s.setOutEpoch x).encoder = s.encoder := rfl
@[simp] theorem State.setOutEpoch_assembler (x : Nat) : (s.setOutEpoch x).assembler = s.assembler := rfl
@[simp] theorem State.setOutEpoch_calculator (x : Nat) : (s.setOutEpoch x).calculator = s.calculator := rfl
@[simp] theorem State.setOutEpoch_msg (x : Nat) : (s.setOutEpoch x).msg = s.msg := rfl
@[simp] theorem State.setOutEpoch_out (x : Nat) : (s.setOutEpoch x).out = s.out := rfl
@[simp] theorem State.setOutEpoch_outCapacity (x : Nat) : (s.setOutEpoch x).outCapacity = s.outCapacity := rfl
@[simp] theorem State.setOutEpoch_params (x : Nat) : (s.setOutEpoch x).params = s.params := rfl
@[simp] theorem State.setOutEpoch_sink (x : Nat) : (s.setOutEpoch x).sink = s.sink := rfl
@[simp] theorem State.setOutEpoch_inbox (x : Nat) : (s.setOutEpoch x).inbox = s.inbox := rfl
@[simp] theorem State.setOutEpoch_freeIndex (x : Nat) : (s.setOutEpoch x).freeIndex = s.freeIndex := rfl
@[simp] theorem State.setOutEpoch_outEpoch (x : Nat) : (s.setOutEpoch x).outEpoch = x := rfl
@[simp] theorem State.setOutEpoch_self : s.setOutEpoch s.outEpoch = s := rfl
@[simp] theorem State.setOutEpoch_setOutEpoch (x y : Nat) : (s.setOutEpoch x).setOutEpoch y = s.setOutEpoch y := rfl

end Sys2Proof.Machine
end

