-- ==== Sys2Proof/Laws/Memory.lean ====
section
/-! SUPPORT. The laws of the sparse spaces: what is read after a write, and that every write keeps the canonical form
(20_memory.md R30, R31). -/

namespace Sys2Proof.Machine

variable {α : Type}

/-! Reading after writing. -/

theorem cellAt_setCell (j k : Nat) (v : α) (l : List (Nat × α)) :
    cellAt j (setCell k v l) = if j = k then some v else cellAt j l := by
  induction l with
  | nil => simp [setCell, cellAt, eq_comm]
  | cons p t ih =>
    obtain ⟨a, x⟩ := p
    simp only [setCell]
    split_ifs with h1 h2 h3 h4 h5 <;> simp only [cellAt, ih] <;> split_ifs <;> first | rfl | omega

theorem cellAt_dropCell (j k : Nat) (l : List (Nat × α)) :
    cellAt j (dropCell k l) = if j = k then none else cellAt j l := by
  induction l with
  | nil => simp [dropCell, cellAt]
  | cons p t ih =>
    obtain ⟨a, x⟩ := p
    simp only [dropCell]
    split_ifs with h1 h2 h3 <;> simp only [cellAt, ih] <;> split_ifs <;> first | rfl | omega

/-- R30: a written word is read back, every other word is as before. -/
@[simp] theorem OutSpace.read_write (o : OutSpace) (j k : Nat) (w : Word) :
    OutSpace.read (OutSpace.write o k w) j = if j = k then some w else OutSpace.read o j :=
  cellAt_setCell j k w o

@[simp] theorem Memory.read_write (m : Memory) (j i : Nat) (b : Byte) :
    Memory.read (Memory.write m i b) j = if j = i then b else Memory.read m j := by
  unfold Memory.read Memory.write
  split_ifs with hb hj hj <;> simp_all [cellAt_setCell, cellAt_dropCell]

/-- The bytes placed are read back, every other byte is as before. -/
theorem Memory.read_place (bs : List Byte) (m : Memory) (i j : Nat) :
    Memory.read (Memory.place m i bs) j = if i ≤ j then (bs[j - i]?).getD (Memory.read m j) else Memory.read m j := by
  induction bs generalizing m i with
  | nil => simp [Memory.place]
  | cons b bs ih =>
    simp only [Memory.place, ih, Memory.read_write]
    by_cases h : i ≤ j
    · by_cases e : j = i
      · subst e; simp
      · obtain ⟨k, rfl⟩ : ∃ k, j = i + 1 + k := ⟨j - (i + 1), by omega⟩
        have h1 : i + 1 + k - i = k + 1 := by omega
        have h2 : i + 1 + k - (i + 1) = k := by omega
        simp [h, h1, e]
    · rw [if_neg (by omega), if_neg (by omega), if_neg h]

/-! The canonical form. -/

theorem risingFrom_mono {l : List (Nat × α)} {a b : Nat} (hab : a ≤ b) (h : risingFrom b l = true) :
    risingFrom a l = true := by
  cases l with
  | nil => rfl
  | cons p t => simp only [risingFrom, Bool.and_eq_true, decide_eq_true_eq] at h ⊢; exact ⟨by omega, h.2⟩

theorem risingFrom_setCell {low k : Nat} (v : α) {l : List (Nat × α)} (hk : low ≤ k) (h : risingFrom low l = true) :
    risingFrom low (setCell k v l) = true := by
  induction l generalizing low with
  | nil => simp [setCell, risingFrom, hk]
  | cons p t ih =>
    obtain ⟨a, x⟩ := p
    simp only [risingFrom, Bool.and_eq_true, decide_eq_true_eq] at h
    simp only [setCell]
    split_ifs with h1 h2
    · simp only [risingFrom, Bool.and_eq_true, decide_eq_true_eq]
      exact ⟨hk, by omega, h.2⟩
    · subst h2
      simp only [risingFrom, Bool.and_eq_true, decide_eq_true_eq]
      exact h
    · simp only [risingFrom, Bool.and_eq_true, decide_eq_true_eq]
      exact ⟨h.1, ih (by omega) h.2⟩

theorem risingFrom_dropCell {low : Nat} (k : Nat) {l : List (Nat × α)} (h : risingFrom low l = true) :
    risingFrom low (dropCell k l) = true := by
  induction l generalizing low with
  | nil => rfl
  | cons p t ih =>
    obtain ⟨a, x⟩ := p
    simp only [risingFrom, Bool.and_eq_true, decide_eq_true_eq] at h
    simp only [dropCell]
    split_ifs with h1
    · exact risingFrom_mono (by omega) (ih h.2)
    · simp only [risingFrom, Bool.and_eq_true, decide_eq_true_eq]
      exact ⟨h.1, ih h.2⟩

theorem all_setCell {p : Nat × α → Bool} {k : Nat} {v : α} {l : List (Nat × α)} (hv : p (k, v) = true)
    (h : l.all p = true) : (setCell k v l).all p = true := by
  induction l with
  | nil => simp [setCell, hv]
  | cons c t ih =>
    obtain ⟨a, x⟩ := c
    simp only [List.all_cons, Bool.and_eq_true] at h
    simp only [setCell]
    split_ifs <;> simp_all

theorem all_dropCell {p : Nat × α → Bool} (k : Nat) {l : List (Nat × α)} (h : l.all p = true) :
    (dropCell k l).all p = true := by
  induction l with
  | nil => rfl
  | cons c t ih =>
    obtain ⟨a, x⟩ := c
    simp only [List.all_cons, Bool.and_eq_true] at h
    simp only [dropCell]
    split_ifs <;> simp_all

/-- A word written to OUT keeps its canonical form. -/
theorem OutSpace.wf_write {o : OutSpace} (k : Nat) (w : Word) (h : OutSpace.wf o = true) :
    OutSpace.wf (OutSpace.write o k w) = true :=
  risingFrom_setCell w (Nat.zero_le k) h

/-- A byte written to MSG keeps its canonical form. -/
theorem Memory.wf_write {m : Memory} (i : Nat) (b : Byte) (h : Memory.wf m = true) :
    Memory.wf (Memory.write m i b) = true := by
  simp only [Memory.wf, Bool.and_eq_true] at h ⊢
  unfold Memory.write
  split_ifs with hb
  · exact ⟨risingFrom_dropCell i h.1, all_dropCell i h.2⟩
  · exact ⟨risingFrom_setCell b (Nat.zero_le i) h.1, all_setCell (by simp [hb]) h.2⟩

/-- Bytes placed in MSG keep its canonical form. -/
theorem Memory.wf_place (bs : List Byte) {m : Memory} (i : Nat) (h : Memory.wf m = true) :
    Memory.wf (Memory.place m i bs) = true := by
  induction bs generalizing m i with
  | nil => exact h
  | cons b bs ih => exact ih (i + 1) (Memory.wf_write i b h)

theorem cellAt_of_low {low j : Nat} {l : List (Nat × α)} (h : risingFrom low l = true) (hj : j < low) :
    cellAt j l = none := by
  induction l generalizing low with
  | nil => rfl
  | cons p t ih =>
    obtain ⟨a, x⟩ := p
    simp only [risingFrom, Bool.and_eq_true, decide_eq_true_eq] at h
    simp only [cellAt, if_neg (show ¬a = j by omega)]
    exact ih h.2 (by omega)

/-- Two rising lists that list the same contents are the same list. -/
theorem eq_of_cellAt {low : Nat} {l m : List (Nat × α)} (hl : risingFrom low l = true) (hm : risingFrom low m = true)
    (h : ∀ j, cellAt j l = cellAt j m) : l = m := by
  induction l generalizing low m with
  | nil =>
    cases m with
    | nil => rfl
    | cons p t => have := h p.1; simp [cellAt] at this
  | cons p t ih =>
    obtain ⟨a, x⟩ := p
    cases m with
    | nil => have := h a; simp [cellAt] at this
    | cons q u =>
      obtain ⟨b, y⟩ := q
      simp only [risingFrom, Bool.and_eq_true, decide_eq_true_eq] at hl hm
      have hab : a = b := by
        rcases Nat.lt_trichotomy a b with hlt | he | hgt
        · have := h a
          simp only [cellAt, if_true, if_neg (show ¬b = a by omega)] at this
          rw [cellAt_of_low hm.2 (by omega)] at this
          cases this
        · exact he
        · have := h b
          simp only [cellAt, if_true, if_neg (show ¬a = b by omega)] at this
          rw [cellAt_of_low hl.2 (by omega)] at this
          cases this
      subst hab
      have hx := h a
      simp only [cellAt, if_true, Option.some.injEq] at hx
      subst hx
      congr 1
      refine ih hl.2 hm.2 fun j => ?_
      rcases Nat.lt_or_ge a j with hj | hj
      · have := h j
        simpa only [cellAt, if_neg (show ¬a = j by omega)] using this
      · rw [cellAt_of_low hl.2 (by omega), cellAt_of_low hm.2 (by omega)]

/-- OUT is determined by what is read from it. -/
theorem OutSpace.ext_read {o p : OutSpace} (ho : OutSpace.wf o = true) (hp : OutSpace.wf p = true)
    (h : ∀ k, OutSpace.read o k = OutSpace.read p k) : o = p :=
  eq_of_cellAt ho hp h

/-! Words placed in a row. -/

@[simp] theorem OutSpace.place_nil (o : OutSpace) (p : Nat) : OutSpace.place o p [] = o := rfl

theorem OutSpace.place_append (ws vs : List Word) (o : OutSpace) (p : Nat) :
    OutSpace.place o p (ws ++ vs) = OutSpace.place (OutSpace.place o p ws) (p + ws.length) vs := by
  induction ws generalizing o p with
  | nil => simp
  | cons w ws ih =>
    simp only [List.cons_append, OutSpace.place, ih, List.length_cons]
    congr 1; omega

/-- The words written are read back, every other word is as before. -/
theorem OutSpace.read_place (ws : List Word) (o : OutSpace) (p k : Nat) :
    OutSpace.read (OutSpace.place o p ws) k =
      if p ≤ k ∧ k < p + ws.length then ws[k - p]? else OutSpace.read o k := by
  induction ws generalizing o p with
  | nil => simp [OutSpace.place]
  | cons w ws ih =>
    simp only [OutSpace.place, ih, OutSpace.read_write, List.length_cons]
    by_cases h : k = p
    · subst h; simp
    · by_cases hk : p + 1 ≤ k ∧ k < p + 1 + ws.length
      · rw [if_pos hk, if_pos (by omega)]
        obtain ⟨d, rfl⟩ : ∃ d, k = p + 1 + d := ⟨k - (p + 1), by omega⟩
        have h1 : p + 1 + d - (p + 1) = d := by omega
        have h2 : p + 1 + d - p = d + 1 := by omega
        simp [h1, h2]
      · rw [if_neg hk, if_neg h, if_neg (by omega)]

theorem OutSpace.wf_place (ws : List Word) {o : OutSpace} (p : Nat) (h : OutSpace.wf o = true) :
    OutSpace.wf (OutSpace.place o p ws) = true := by
  induction ws generalizing o p with
  | nil => exact h
  | cons w ws ih => exact ih (p + 1) (OutSpace.wf_write p w h)

/-! What a reader of OUT sees. -/

/-- A word known to be there is what a reader sees. -/
theorem State.outWord_of_read {s : State} {k : Nat} {w : Word} (h : OutSpace.read s.out k = some w) : s.outWord k = w := by
  simp [State.outWord, h]

/-- A word that nothing has written since looks as it did. -/
theorem State.outWord_congr {s t : State} {k : Nat} (ho : OutSpace.read t.out k = OutSpace.read s.out k)
    (he : t.outEpoch = s.outEpoch) : t.outWord k = s.outWord k := by rw [State.outWord, ho, he]; rfl

/-- R35: the caller's words are there, every other word looks as it did. -/
theorem leaveInOut_outWord (first : Nat) (words : List Word) (s : State) (k : Nat) :
    (leaveInOut first words s).outWord k =
      if first ≤ k ∧ k < first + words.length then (words[k - first]?).getD (s.outWord k) else s.outWord k := by
  simp only [State.outWord, leaveInOut, State.setOut, OutSpace.read_place]
  split_ifs with h
  · rw [List.getElem?_eq_getElem (by omega)]; rfl
  · rfl

end Sys2Proof.Machine
end

