-- ==== Sys2Proof/Laws/Outcome.lean ====
section
/-! SUPPORT. The outcomes of an operation: what each check of `checkRequest` finds (60_exceptions.md R120), what `complete`, `reject` and
the three ways to end do. -/

namespace Sys2Proof.Machine

theorem exceeds_eq_false_iff (n : Nat) (b : Option Nat) : exceeds n b = false ↔ within n b := by
  cases b <;> simp [exceeds, within]

theorem exceeds_eq_true_iff (n : Nat) (b : Option Nat) : exceeds n b = true ↔ ¬ within n b := by
  rw [← exceeds_eq_false_iff]; simp

@[simp] theorem exceeds_zero (b : Option Nat) : exceeds 0 b = false := by cases b <;> simp [exceeds]

/-- The first check: an operand too wide. -/
theorem checkRequest_of_wide {fits : Bool} (h : fits = false) (counts : List Nat) (words : Nat) (s : State) :
    checkRequest fits counts words s = some .operandTooWide := by simp [checkRequest, h]

/-- The second: a length or count above LEN_MAX. -/
theorem checkRequest_of_long {fits : Bool} (h : fits = true) {counts : List Nat} (words : Nat) {s : State}
    (hc : ∃ n ∈ counts, ¬ within n s.params.lenMax) : checkRequest fits counts words s = some .lengthTooLarge := by
  have : counts.any (fun n => exceeds n s.params.lenMax) = true := by
    simpa [List.any_eq_true, exceeds_eq_true_iff] using hc
  simp [checkRequest, h, this]

theorem counts_any_false {counts : List Nat} {s : State} (hc : ∀ n ∈ counts, within n s.params.lenMax) :
    counts.any (fun n => exceeds n s.params.lenMax) = false := by
  simpa [List.any_eq_false, exceeds_eq_true_iff] using hc

/-- The third: too little capacity. -/
theorem checkRequest_of_overrun {fits : Bool} (h : fits = true) {counts : List Nat} {words : Nat} {s : State}
    (hc : ∀ n ∈ counts, within n s.params.lenMax) (hw : ¬ within words s.outCapacity) :
    checkRequest fits counts words s = some .outputOverrun := by
  simp [checkRequest, h, counts_any_false hc, (exceeds_eq_true_iff words s.outCapacity).2 hw]

/-- None applies. -/
theorem checkRequest_of_ok {fits : Bool} (h : fits = true) {counts : List Nat} {words : Nat} {s : State}
    (hc : ∀ n ∈ counts, within n s.params.lenMax) (hw : within words s.outCapacity) :
    checkRequest fits counts words s = none := by
  simp [checkRequest, h, counts_any_false hc, (exceeds_eq_false_iff words s.outCapacity).2 hw]

/-- What `checkRequest` answers, said once. -/
theorem checkRequest_cases (fits : Bool) (counts : List Nat) (words : Nat) (s : State) :
    (fits = false ∧ checkRequest fits counts words s = some .operandTooWide) ∨
    (fits = true ∧ (∃ n ∈ counts, ¬ within n s.params.lenMax) ∧ checkRequest fits counts words s = some .lengthTooLarge) ∨
    (fits = true ∧ (∀ n ∈ counts, within n s.params.lenMax) ∧ ¬ within words s.outCapacity ∧
      checkRequest fits counts words s = some .outputOverrun) ∨
    (fits = true ∧ (∀ n ∈ counts, within n s.params.lenMax) ∧ within words s.outCapacity ∧
      checkRequest fits counts words s = none) := by
  cases hf : fits
  · exact .inl ⟨rfl, checkRequest_of_wide rfl _ _ _⟩
  · by_cases hc : ∀ n ∈ counts, within n s.params.lenMax
    · by_cases hw : within words s.outCapacity
      · exact .inr (.inr (.inr ⟨rfl, hc, hw, checkRequest_of_ok rfl hc hw⟩))
      · exact .inr (.inr (.inl ⟨rfl, hc, hw, checkRequest_of_overrun rfl hc hw⟩))
    · exact .inr (.inl ⟨rfl, by simpa using hc, checkRequest_of_long rfl _ (by simpa using hc)⟩)

@[simp] theorem complete_none (run : State → State) (s : State) : complete none run s = .next (run s) := rfl
@[simp] theorem complete_some (r : Rejection) (run : State → State) (s : State) :
    complete (some r) run s = .next (reject r s) := rfl

/-- A request ends in a next state: rejected, or run. -/
theorem complete_cases (verdict : Option Rejection) (run : State → State) (s : State) :
    (∃ r, verdict = some r ∧ complete verdict run s = .next (reject r s)) ∨
    (verdict = none ∧ complete verdict run s = .next (run s)) := by
  cases verdict with
  | none => exact .inr ⟨rfl, rfl⟩
  | some r => exact .inl ⟨r, rfl, rfl⟩

/-- R121: all a rejection does. -/
theorem reject_eq (r : Rejection) (s : State) : reject r s =
    { s with res := ⟨rejectStatus r, rejectCode r, Config.freeValue s.freeIndex, Config.freeCount s.freeIndex⟩,
             freeIndex := s.freeIndex + 1 } := rfl

theorem rejectStatus_ne_ok (r : Rejection) : rejectStatus r ≠ statusOK := by cases r <;> decide

/-- R13: all that ending with a value does. -/
theorem finishValue_eq (v : Word) (s : State) : finishValue v s =
    { s with res := ⟨0#2, 0#4, v, Config.freeCount s.freeIndex⟩, freeIndex := s.freeIndex + 1 } := rfl

/-- R13: all that ending with a count does. -/
theorem finishCount_eq (n : Nat) (s : State) : finishCount n s =
    { s with res := ⟨0#2, 0#4, Config.freeValue s.freeIndex, n⟩, freeIndex := s.freeIndex + 1 } := rfl

/-- R61: all that ending with nothing does. -/
theorem finishNone_eq (s : State) : finishNone s =
    { s with res := ⟨0#2, 0#4, Config.freeValue s.freeIndex, Config.freeCount s.freeIndex⟩,
             freeIndex := s.freeIndex + 1 } := rfl

/-- Every way to end leaves a legal result pair. -/
theorem reject_legal (r : Rejection) (s : State) : (reject r s).res.legal = true := by
  cases r <;> simp [reject, ResultRegs.legal, rejectStatus, rejectCode, statusOK, statusRefused, statusFault]
theorem finishValue_legal (v : Word) (s : State) : (finishValue v s).res.legal = true := by
  simp [finishValue, ResultRegs.legal]
theorem finishCount_legal (n : Nat) (s : State) : (finishCount n s).res.legal = true := by
  simp [finishCount, ResultRegs.legal]
theorem finishNone_legal (s : State) : (finishNone s).res.legal = true := by simp [finishNone, ResultRegs.legal]

end Sys2Proof.Machine
end

