-- ==== Sys2Proof/Laws/Checksum.lean ====
section
/-! SUPPORT. The Checksum Unit's procedures, step by step (40_checksum_unit.md R63, R66): the column loop is additive in the
dividend and its other registers do not depend on it, each column keeps the dividend's class modulo the generator and clears its
bit, and the XOR of bits counts ones. -/

namespace Sys2Proof.Machine

/-! The column loop. -/

theorem crcColumns_succ (n : Nat) (r : ChecksumRegs) : crcColumns (n + 1) r = crcColumn (crcColumns n r) := by
  induction n generalizing r with
  | zero => rfl
  | succ n ih => rw [crcColumns, ih]; rfl

theorem crcColumns_col (n : Nat) (r : ChecksumRegs) : (crcColumns n r).col = r.col + n := by
  induction n generalizing r with
  | zero => rfl
  | succ n ih => rw [crcColumns, ih, crcColumn]; simp only; omega

theorem crcColumns_den (n : Nat) (r : ChecksumRegs) : (crcColumns n r).den = r.den >>> n := by
  induction n generalizing r with
  | zero => simp [crcColumns]
  | succ n ih => rw [crcColumns, ih, crcColumn]; simp only [← BitVec.shiftRight_add]; congr 1; omega

theorem crcRegs_col (m : Data21) : (crcRegs m).col = 21 := by simp [crcRegs, crcColumns_col, crcStart]

theorem crcRegs_den (m : Data21) : (crcRegs m).den = 0x3B4#31 := by
  rw [crcRegs, crcColumns_den]; exact (by decide : (Config.GEN.setWidth 31 <<< 20 : BitVec 31) >>> 21 = 0x3B4#31)

/-- The loop is additive in the dividend. -/
theorem crcColumns_xor (n : Nat) (a b den : BitVec 31) (col : Nat) :
    (crcColumns n ⟨a ^^^ b, den, col⟩).msgreg =
      (crcColumns n ⟨a, den, col⟩).msgreg ^^^ (crcColumns n ⟨b, den, col⟩).msgreg := by
  induction n generalizing a b den col with
  | zero => rfl
  | succ n ih =>
    simp only [crcColumns, crcColumn, BitVec.getLsbD_xor]
    rw [← ih]
    congr 3
    have h1 : a ^^^ den ^^^ (b ^^^ den) = a ^^^ b := by
      rw [BitVec.xor_assoc, ← BitVec.xor_assoc den, BitVec.xor_comm den b, BitVec.xor_assoc b, BitVec.xor_self, BitVec.xor_zero]
    have h2 : a ^^^ b ^^^ den = a ^^^ (b ^^^ den) := BitVec.xor_assoc ..
    have h3 : a ^^^ (b ^^^ den) = a ^^^ den ^^^ b := by rw [BitVec.xor_comm b, ← BitVec.xor_assoc]
    cases a.getLsbD (30 - col) <;> cases b.getLsbD (30 - col) <;> simp [h1, h2, h3]

/-- After `n` columns the dividend's `n` top bits are clear: bit `30 - c` falls when column `c` is done. -/
theorem crcColumns_clear (m : Data21) (n : Nat) (hn : n ≤ 21) (i : Nat) (hi : 31 - n ≤ i) :
    (crcColumns n (crcStart m)).msgreg.getLsbD i = false := by
  induction n with
  | zero => exact BitVec.getLsbD_of_ge _ _ (by omega)
  | succ n ih =>
    have hden : (crcColumns n (crcStart m)).den = Config.GEN.setWidth 31 <<< 20 >>> n := by rw [crcColumns_den]; rfl
    have hcol : (crcColumns n (crcStart m)).col = n := by rw [crcColumns_col]; simp [crcStart]
    have hgen : ∀ n < 21, ∀ i < 31, 30 - n ≤ i →
        (Config.GEN.setWidth 31 <<< 20 >>> n : BitVec 31).getLsbD i = decide (i = 30 - n) := by decide
    rw [crcColumns_succ, crcColumn]
    simp only [hcol]
    by_cases h31 : i < 31
    · have hd := hgen n (by omega) i h31 (by omega)
      by_cases htop : i = 30 - n
      · subst htop
        cases hb : (crcColumns n (crcStart m)).msgreg.getLsbD (30 - n)
        · simp [hb]
        · simp [hb, hden, hd]
      · have hz := ih (by omega) (by omega)
        split_ifs
        · simp [hz, hden, hd, htop]
        · exact hz
    · exact BitVec.getLsbD_of_ge _ _ (by omega)

/-- R63: after the 21st column bits 30..10 are 0 and bits 9..0 are the remainder. -/
theorem crcRegs_msgreg (m : Data21) : (crcRegs m).msgreg = (crcOf m).setWidth 31 := by
  refine BitVec.eq_of_getLsbD_eq fun i hi => ?_
  simp only [crcOf, BitVec.getLsbD_setWidth, BitVec.getLsbD_extractLsb', hi, decide_true, Bool.true_and, Nat.zero_add]
  by_cases h : i < 10
  · simp [h]
  · simp [h]; exact crcColumns_clear m 21 (by omega) i (by omega)

/-! The XOR of bits. -/

/-- R67: the XOR of the low bits is the parity of their number of ones. -/
theorem xorBits_eq (w : Word) (n : Nat) :
    xorBits w n = decide (((List.range n).filter fun i => w.getLsbD i).length % 2 = 1) := by
  induction n with
  | zero => rfl
  | succ n ih =>
    rw [xorBits, ih, List.range_succ, List.filter_append, List.length_append]
    cases h : w.getLsbD n
    · simp [h]
    · simp only [h, List.filter_cons_of_pos, List.filter_nil, List.length_singleton, Bool.true_xor]
      rw [← decide_not]
      congr 1
      simp only [eq_iff_iff]
      omega

theorem xorBits_xor (a b : Word) (n : Nat) : xorBits (a ^^^ b) n = (xorBits a n ^^ xorBits b n) := by
  induction n with
  | zero => rfl
  | succ n ih =>
    simp only [xorBits, ih, BitVec.getLsbD_xor]
    cases a.getLsbD n <;> cases b.getLsbD n <;> cases xorBits a n <;> cases xorBits b n <;> rfl

end Sys2Proof.Machine
end

