-- ==== Sys2Proof/Laws/Emitter.lean ====
section
/-! SUPPORT. What the word emitter does (42_character_encoders.md R80 to R82): a run of words appended to OUT, the bookkeeping of the
position, and, for a stream of pushed bits, the words written so far and the bits held. -/

namespace Sys2Proof.Machine

/-! Words appended in a row. -/

/-- R30: all that an append does. -/
theorem emit_eq (w : Word) (s : State) : emit w s =
    { s with out := OutSpace.place s.out s.assembler.outptr [w],
             assembler := { s.assembler with outptr := s.assembler.outptr + 1 } } := rfl

/-! The loops. -/

/-- A property of the state and of the number of rounds done that one round carries on holds after the loop. -/
theorem loop_induct {P : Nat → State → Prop} {f : State → State} {n : Nat} (hf : ∀ k < n, ∀ s, P k s → P (k + 1) (f s)) {s : State}
    (h : P 0 s) : P n (loop n f s) := by
  suffices H : ∀ m k, k + m = n → ∀ s, P k s → P n (loop m f s) from H n 0 (by omega) s h
  intro m
  induction m with
  | zero => intro k hk s hs; simpa [loop, ← hk] using hs
  | succ m ih => intro k hk s hs; exact ih (k + 1) (by omega) (f s) (hf k (by omega) s hs)

/-- `n` counted rounds of one word (R21, R95, R97, R101). -/
theorem loop_emitCounted (n : Nat) (w : Word) (s : State) : loop n (emitCounted w) s =
    { s with out := OutSpace.place s.out s.assembler.outptr (List.replicate n w),
             assembler := { s.assembler with outptr := s.assembler.outptr + n, k := s.assembler.k + n } } := by
  induction n generalizing s with
  | zero => rfl
  | succ n ih =>
    simp only [loop, ih, emitCounted, emit_eq, State.setAssembler, List.replicate_succ, OutSpace.place]
    congr 2 <;> omega

/-- All that a counted run does. -/
theorem emitRun_eq (n : Nat) (w : Word) (s : State) : emitRun n w s =
    { s with out := OutSpace.place s.out s.assembler.outptr (List.replicate n w),
             assembler := { s.assembler with outptr := s.assembler.outptr + n, k := n } } := by
  simp only [emitRun, loop_emitCounted, State.setAssembler, Nat.zero_add]

/-! The position and the SYNC words. -/

/-- R81: the SYNC that follows a word written at position 15. -/
def syncAfter (wpos : Nat) : List Word := if wpos = 15 then [Config.SYNC] else []

/-- R81: all that the emission of a data field does, from a position of 0..15. -/
theorem emitMsgWord_eq (f : Field20) (s : State) (h : s.encoder.wpos ≤ 15) : emitMsgWord f s =
    { s with
      checksum := crcRegs (messageData f)
      packer := ⟨packFull (messageData f), packParity (messageData f)⟩
      out := OutSpace.place s.out s.assembler.outptr (codewordOf (messageData f) :: syncAfter s.encoder.wpos)
      assembler := { s.assembler with outptr := s.assembler.outptr + (1 + (syncAfter s.encoder.wpos).length) }
      encoder := { s.encoder with wcount := s.encoder.wcount + (1 + (syncAfter s.encoder.wpos).length),
                                  wpos := (s.encoder.wpos + 1) % 16 } } := by
  unfold emitMsgWord advancePosition
  by_cases h15 : s.encoder.wpos = 15
  · simp [runPacker, runCrc, emit_eq, State.setEncoder, State.setPacker, State.setChecksum, h15, syncAfter, OutSpace.place,
      Config.BATCH_SIZE]
  · have h16 : ¬ s.encoder.wpos + 1 = 16 := by omega
    have hm : (s.encoder.wpos + 1) % 16 = s.encoder.wpos + 1 := Nat.mod_eq_of_lt (by omega)
    simp [runPacker, runCrc, emit_eq, State.setEncoder, State.setPacker, State.setChecksum, h15, h16, hm, syncAfter, OutSpace.place,
      Config.BATCH_SIZE]

/-! A stream of bits. -/

/-- The words written for the first `q` full data fields of a stream, from position `o` (R85). -/
def streamWords (o : Nat) (f : Nat → Bool) : Nat → List Word
  | 0 => []
  | q + 1 => streamWords o f q ++
      codewordOf (messageData (packBits (fun j => f (20 * q + j)) 20)) :: syncAfter ((o + q) % 16)

/-- A buffer that holds `r` bits of a stream, the first one highest among them (R17). -/
def heldBits (g : Nat → Bool) (r : Nat) : Field20 := (packBits g r).setWidth 20

/-- After `k` bits of the stream `f`, pushed from position `o` on a state that held no bits: what is written and what is held. -/
structure Streamed (o : Nat) (f : Nat → Bool) (s0 : State) (k : Nat) (s : State) : Prop where
  out : s.out = OutSpace.place s0.out s0.assembler.outptr (streamWords o f (k / 20))
  outptr : s.assembler = { s0.assembler with outptr := s0.assembler.outptr + (streamWords o f (k / 20)).length }
  wcount : s.encoder.wcount = (streamWords o f (k / 20)).length
  wpos : s.encoder.wpos = (o + k / 20) % 16
  nbits : s.encoder.nbits = k % 20
  buf : s.encoder.buf = heldBits (fun j => f (20 * (k / 20) + j)) (k % 20)

/-- Nothing but the registers of the encoders, packer and Checksum Unit, `OUTPTR` and OUT differs. -/
structure EncoderOnly (s t : State) : Prop where
  req : t.req = s.req
  res : t.res = s.res
  calculator : t.calculator = s.calculator
  msg : t.msg = s.msg
  outCapacity : t.outCapacity = s.outCapacity
  params : t.params = s.params
  sink : t.sink = s.sink
  inbox : t.inbox = s.inbox
  freeIndex : t.freeIndex = s.freeIndex
  outEpoch : t.outEpoch = s.outEpoch
  assembler : t.assembler = { s.assembler with outptr := t.assembler.outptr }

theorem EncoderOnly.refl (s : State) : EncoderOnly s s := ⟨rfl, rfl, rfl, rfl, rfl, rfl, rfl, rfl, rfl, rfl, rfl⟩

theorem EncoderOnly.trans {s t u : State} (h : EncoderOnly s t) (g : EncoderOnly t u) : EncoderOnly s u where
  req := g.req.trans h.req
  res := g.res.trans h.res
  calculator := g.calculator.trans h.calculator
  msg := g.msg.trans h.msg
  outCapacity := g.outCapacity.trans h.outCapacity
  params := g.params.trans h.params
  sink := g.sink.trans h.sink
  inbox := g.inbox.trans h.inbox
  freeIndex := g.freeIndex.trans h.freeIndex
  outEpoch := g.outEpoch.trans h.outEpoch
  assembler := by have h1 := h.assembler; have h2 := g.assembler; rw [h1] at h2; exact h2

theorem EncoderOnly.setEncoder (s : State) (e : EncoderRegs) : EncoderOnly s (s.setEncoder e) :=
  ⟨rfl, rfl, rfl, rfl, rfl, rfl, rfl, rfl, rfl, rfl, rfl⟩

theorem EncoderOnly.emit (w : Word) (s : State) : EncoderOnly s (emit w s) :=
  ⟨rfl, rfl, rfl, rfl, rfl, rfl, rfl, rfl, rfl, rfl, rfl⟩

theorem EncoderOnly.runPacker (d : Data21) (s : State) : EncoderOnly s (runPacker d s) :=
  ⟨rfl, rfl, rfl, rfl, rfl, rfl, rfl, rfl, rfl, rfl, rfl⟩

theorem EncoderOnly.advancePosition (s : State) : EncoderOnly s (advancePosition s) := by
  unfold Machine.advancePosition
  dsimp only
  split
  · exact ((EncoderOnly.setEncoder s _).trans (EncoderOnly.emit _ _)).trans (EncoderOnly.setEncoder _ _)
  · exact EncoderOnly.setEncoder s _

theorem EncoderOnly.emitMsgWord (f : Field20) (s : State) : EncoderOnly s (emitMsgWord f s) :=
  ((EncoderOnly.runPacker _ s).trans (EncoderOnly.emit _ _)).trans (EncoderOnly.advancePosition _)

theorem EncoderOnly.pushBit (b : Bool) (s : State) : EncoderOnly s (pushBit b s) := by
  unfold Machine.pushBit
  dsimp only
  split
  · exact ((EncoderOnly.setEncoder s _).trans (EncoderOnly.emitMsgWord _ _)).trans (EncoderOnly.setEncoder _ _)
  · exact EncoderOnly.setEncoder s _

theorem EncoderOnly.flush (s : State) : EncoderOnly s (flush s) := by
  unfold Machine.flush
  split
  · exact EncoderOnly.emitMsgWord _ _
  · exact EncoderOnly.refl s

theorem EncoderOnly.pushBits {w : Nat} (v : BitVec w) (n j : Nat) (s : State) : EncoderOnly s (pushBits v j n s) := by
  induction n generalizing j s with
  | zero => exact EncoderOnly.refl s
  | succ n ih => exact ((EncoderOnly.setEncoder s _).trans (EncoderOnly.pushBit _ _)).trans (ih (j + 1) _)

theorem EncoderOnly.textChar (s : State) : EncoderOnly s (textChar s) :=
  ((EncoderOnly.setEncoder s _).trans (EncoderOnly.pushBits _ _ _ _)).trans (EncoderOnly.setEncoder _ _)

theorem EncoderOnly.numericChar (s : State) : EncoderOnly s (numericChar s) :=
  ((((EncoderOnly.setEncoder s _).trans (EncoderOnly.setEncoder _ _)).trans (EncoderOnly.setEncoder _ _)).trans
    (EncoderOnly.pushBits _ _ _ _)).trans (EncoderOnly.setEncoder _ _)

theorem EncoderOnly.loop {f : State → State} (hf : ∀ s, EncoderOnly s (f s)) (n : Nat) (s : State) :
    EncoderOnly s (loop n f s) := by
  induction n generalizing s with
  | zero => exact EncoderOnly.refl s
  | succ n ih => exact (hf s).trans (ih (f s))

/-- What the text-mode Character Encoder leaves alone. -/
theorem EncoderOnly.runText (o : Nat) (s : State) : EncoderOnly s (runText o s) :=
  ((EncoderOnly.setEncoder s _).trans (EncoderOnly.loop EncoderOnly.textChar _ _)).trans (EncoderOnly.flush _)

/-- What the numeric-mode Character Encoder leaves alone. -/
theorem EncoderOnly.runNumeric (o : Nat) (s : State) : EncoderOnly s (runNumeric o s) :=
  ((EncoderOnly.setEncoder s _).trans (EncoderOnly.loop EncoderOnly.numericChar _ _)).trans (EncoderOnly.flush _)

end Sys2Proof.Machine
end

