-- ==== Sys2Proof/Laws/Stream.lean ====
section
/-! SUPPORT. The Character Encoders as writers of a stream (42_character_encoders.md R85, R86): what one pushed bit, one character, the
tail and the whole run of either encoder leave. -/

namespace Sys2Proof.Machine

/-! Packed bits. -/

theorem getLsbD_packBits (f : Nat → Bool) (n i : Nat) :
    (packBits f n).getLsbD i = (decide (i < n) && f (n - 1 - i)) := by
  induction n generalizing i with
  | zero => simp [packBits]
  | succ n ih =>
    rw [packBits, BitVec.getLsbD_concat]
    cases i with
    | zero => simp
    | succ i =>
      simp only [Nat.add_eq_zero_iff, Nat.one_ne_zero, and_false, if_false, Nat.add_sub_cancel, ih]
      congr 2
      · simp
      · omega

/-- A bit entering a buffer that holds fewer than 20 (R80). -/
theorem shiftConcat_packBits (f : Nat → Bool) (r : Nat) :
    (heldBits f r).shiftConcat (f r) = heldBits f (r + 1) := by
  refine BitVec.eq_of_getLsbD_eq fun i hi => ?_
  simp only [heldBits, BitVec.getLsbD_shiftConcat, BitVec.getLsbD_setWidth, getLsbD_packBits]
  cases i with
  | zero => simp
  | succ i =>
    have h : r + 1 - 1 - (i + 1) = r - 1 - i := by omega
    rw [h]
    simp only [hi, decide_true, Bool.true_and, Nat.add_eq_zero_iff, Nat.one_ne_zero, and_false, if_false, Nat.add_sub_cancel,
      Nat.add_lt_add_iff_right]
    have : i < 20 := by omega
    simp [this]

/-- R82: the tail's shift puts the bits held at the top and zeros below, which is the field of a stream that has ended. -/
theorem shift_packBits (f : Nat → Bool) (n : Nat) (hn : n ≤ 20) (hf : ∀ j, n ≤ j → f j = false) :
    (heldBits f n) <<< (20 - n) = packBits f 20 := by
  refine BitVec.eq_of_getLsbD_eq fun i hi => ?_
  simp only [heldBits, BitVec.getLsbD_shiftLeft, BitVec.getLsbD_setWidth, getLsbD_packBits]
  by_cases h : i < 20 - n
  · simp [h, hi, hf (20 - 1 - i) (by omega)]
  · have e : n - 1 - (i - (20 - n)) = 20 - 1 - i := by omega
    have h1 : i - (20 - n) < 20 := by omega
    have h2 : i - (20 - n) < n := by omega
    simp [h, hi, e, h1, h2]

/-! The words of a stream. -/

theorem length_streamWords {o : Nat} (ho : o < 16) (f : Nat → Bool) (q : Nat) :
    (streamWords o f q).length = q + (o + q) / 16 := by
  induction q with
  | zero => simp [streamWords, Nat.div_eq_of_lt ho]
  | succ q ih =>
    simp only [streamWords, List.length_append, ih, List.length_cons, syncAfter]
    split_ifs with h <;> simp <;> omega

theorem getElem?_streamWords_lt {o : Nat} (ho : o < 16) (f : Nat → Bool) {q r i : Nat} (hqr : q ≤ r)
    (hi : i < q + (o + q) / 16) : (streamWords o f r)[i]? = (streamWords o f q)[i]? := by
  induction r, hqr using Nat.le_induction with
  | base => rfl
  | succ r hr ih =>
    rw [streamWords, List.getElem?_append_left, ih]
    rw [length_streamWords ho]
    have : (o + q) / 16 ≤ (o + r) / 16 := Nat.div_le_div_right (by omega)
    omega

/-- R85: message word `w` stands at index w + (o + w) div 16. -/
theorem streamWords_message {o : Nat} (ho : o < 16) (f : Nat → Bool) {q w : Nat} (hw : w < q) :
    (streamWords o f q)[w + (o + w) / 16]? =
      some (codewordOf (messageData (packBits (fun j => f (20 * w + j)) 20))) := by
  have h : (o + w) / 16 ≤ (o + (w + 1)) / 16 := Nat.div_le_div_right (by omega)
  rw [getElem?_streamWords_lt ho f (show w + 1 ≤ q from hw) (by omega), streamWords,
    List.getElem?_append_right (by rw [length_streamWords ho]), length_streamWords ho]
  simp

/-- R85: a SYNC follows every message word at position 15. -/
theorem streamWords_sync {o : Nat} (ho : o < 16) (f : Nat → Bool) {q w : Nat} (hw : w < q) (h15 : (o + w) % 16 = 15) :
    (streamWords o f q)[w + (o + w) / 16 + 1]? = some Config.SYNC := by
  have h : (o + (w + 1)) / 16 = (o + w) / 16 + 1 := by omega
  rw [getElem?_streamWords_lt ho f (show w + 1 ≤ q from hw) (by omega), streamWords,
    List.getElem?_append_right (by rw [length_streamWords ho]; omega), length_streamWords ho]
  have e : w + (o + w) / 16 + 1 - (w + (o + w) / 16) = 1 := by omega
  simp [e, syncAfter, h15]

/-! One bit. -/

/-- R80: one more bit of the stream. -/
theorem Streamed.pushBit {o : Nat} {f : Nat → Bool} {s0 s : State} {k : Nat} {b : Bool} (h : Streamed o f s0 k s) (hb : f k = b) :
    Streamed o f s0 (k + 1) (pushBit b s) := by
  have hk : 20 * (k / 20) + k % 20 = k := Nat.div_add_mod k 20
  have hbuf : s.encoder.buf.shiftConcat b = heldBits (fun j => f (20 * (k / 20) + j)) (k % 20 + 1) := by
    rw [← shiftConcat_packBits, h.buf, hk, hb]
  unfold Machine.pushBit
  by_cases hfull : k % 20 = 19
  · have hq : (k + 1) / 20 = k / 20 + 1 := by omega
    have hr : (k + 1) % 20 = 0 := by omega
    have hn : s.encoder.nbits + 1 = 20 := by rw [h.nbits, hfull]
    have hw : s.encoder.wpos ≤ 15 := by rw [h.wpos]; omega
    have hfield : s.encoder.buf.shiftConcat b = packBits (fun j => f (20 * (k / 20) + j)) 20 := by
      rw [hbuf, hfull]; exact BitVec.setWidth_eq _
    have hp : (s.encoder.wpos + 1) % 16 = (o + (k / 20 + 1)) % 16 := by rw [h.wpos]; omega
    have ha : s.assembler.outptr = s0.assembler.outptr + (streamWords o f (k / 20)).length := by rw [h.outptr]
    simp only [State.setEncoder, hn, Config.BITS_PER_WORD, if_true]
    rw [emitMsgWord_eq _ _ (by exact hw)]
    refine ⟨?_, ?_, ?_, ?_, ?_, ?_⟩
    · simp only [hq, streamWords, OutSpace.place_append, h.out, ha, hfield, h.wpos]
    · simp only [hq, streamWords, h.outptr, h.wpos, List.length_append, List.length_cons]
      congr 1; omega
    · simp only [hq, streamWords, h.wcount, h.wpos, List.length_append, List.length_cons]; omega
    · simp only [hq, hp]
    · simp only [hr]
    · simp only [hr]; rfl
  · have hq : (k + 1) / 20 = k / 20 := by omega
    have hr : (k + 1) % 20 = k % 20 + 1 := by omega
    have hn : ¬ s.encoder.nbits + 1 = 20 := by rw [h.nbits]; omega
    simp only [State.setEncoder, hn, Config.BITS_PER_WORD, if_false]
    exact ⟨by rw [hq]; exact h.out, by rw [hq]; exact h.outptr, by rw [hq]; exact h.wcount, by rw [hq]; exact h.wpos,
      by simp only [hr, h.nbits], by simp only [hq, hr, hbuf]⟩

theorem pushBit_cidx (b : Bool) (s : State) : (pushBit b s).encoder.cidx = s.encoder.cidx := by
  unfold pushBit emitMsgWord advancePosition
  dsimp only
  split_ifs <;> rfl

theorem pushBits_cidx {w : Nat} (v : BitVec w) (n j : Nat) (s : State) :
    (pushBits v j n s).encoder.cidx = s.encoder.cidx := by
  induction n generalizing j s with
  | zero => rfl
  | succ n ih => rw [pushBits, ih, pushBitOf, pushBit_cidx]; rfl

/-- Registers the stream does not speak of may be written. -/
theorem Streamed.of_encoder {o : Nat} {f : Nat → Bool} {s0 s t : State} {k : Nat} (h : Streamed o f s0 k s) (ho : t.out = s.out)
    (ha : t.assembler = s.assembler) (hw : t.encoder.wcount = s.encoder.wcount) (hp : t.encoder.wpos = s.encoder.wpos)
    (hn : t.encoder.nbits = s.encoder.nbits) (hb : t.encoder.buf = s.encoder.buf) : Streamed o f s0 k t :=
  ⟨ho ▸ h.out, ha ▸ h.outptr, hw ▸ h.wcount, hp ▸ h.wpos, hn ▸ h.nbits, hb ▸ h.buf⟩

/-- Several bits of a value, in order. -/
theorem Streamed.pushBits {o : Nat} {f : Nat → Bool} {s0 : State} {w : Nat} (v : BitVec w) (n : Nat) :
    ∀ {j k : Nat} {s : State}, Streamed o f s0 k s → (∀ i < n, f (k + i) = v.getLsbD (j + i)) →
      Streamed o f s0 (k + n) (pushBits v j n s) := by
  induction n with
  | zero => intro j k s h _; exact h
  | succ n ih =>
    intro j k s h hf
    have h1 : Streamed o f s0 (k + 1) (pushBitOf v j s) :=
      Streamed.pushBit (h.of_encoder rfl rfl rfl rfl rfl rfl) (by simpa using hf 0 (by omega))
    have h2 := ih (j := j + 1) h1 fun i hi => by
      have := hf (i + 1) (by omega)
      rwa [show k + (i + 1) = k + 1 + i by omega, show j + (i + 1) = j + 1 + i by omega] at this
    rw [show k + (n + 1) = k + 1 + n by omega]
    exact h2

/-! Characters. -/

theorem getLsbD_rev4 (n : Nibble) (j : Nat) (hj : j < 4) : (rev4 n).getLsbD j = n.getLsbD (3 - j) := by
  have : ∀ n : Nibble, ∀ j < 4, (rev4 n).getLsbD j = n.getLsbD (3 - j) := by decide
  exact this n j hj

theorem streamBit_text (message : Nat → Byte) {L i j : Nat} (hi : i < L) (hj : j < 7) :
    streamBit false message L (i * 7 + j) = (message i).getLsbD j := by
  have h1 : i * 7 + j < L * 7 := by omega
  have h2 : (i * 7 + j) / 7 = i := by omega
  have h3 : (i * 7 + j) % 7 = j := by omega
  simp [streamBit, layoutBits, h1, h2, h3]

/-- R48: the machine's digit table is the spec's. -/
theorem digitOf_eq (c : Byte) : digitOf c = layoutDigit c := by
  have h : ∀ n < 256, digitOf (BitVec.ofNat 8 n) = layoutDigit (BitVec.ofNat 8 n) := by decide +kernel
  have := h c.toNat c.isLt
  rwa [BitVec.ofNat_toNat, BitVec.setWidth_eq] at this

theorem streamBit_numeric (message : Nat → Byte) {L i j : Nat} (hi : i < L) (hj : j < 4) :
    streamBit true message L (i * 4 + j) = (digitOf (message i)).getLsbD (3 - j) := by
  have h1 : i * 4 + j < L * 4 := by omega
  have h2 : (i * 4 + j) / 4 = i := by omega
  have h3 : (i * 4 + j) % 4 = j := by omega
  simp [streamBit, layoutBits, h1, h2, h3, digitOf_eq]

theorem streamBit_end (numeric : Bool) (message : Nat → Byte) {L k : Nat} (h : L * layoutBits numeric ≤ k) :
    streamBit numeric message L k = false := by
  simp [streamBit, Nat.not_lt.2 h]

/-- The state of an encoder after `c` characters of the message. -/
structure AfterChars (numeric : Bool) (o L : Nat) (s0 : State) (c : Nat) (s : State) : Prop where
  streamed : Streamed o (streamBit numeric (Memory.read s0.msg) L) s0 (c * layoutBits numeric) s
  cidx : s.encoder.cidx = c
  only : EncoderOnly s0 s

theorem Streamed.nextChar {o : Nat} {f : Nat → Bool} {s0 s : State} {k : Nat} (h : Streamed o f s0 k s) :
    Streamed o f s0 k (nextChar s) := h.of_encoder rfl rfl rfl rfl rfl rfl

theorem textChar_eq (s : State) : textChar s =
    nextChar (pushBits (Memory.read s.msg s.encoder.cidx) 0 7 (fetchChar s)) := rfl

/-- The state in which the bits of a numeric character are pushed. -/
def loadNibble (s : State) : State :=
  (fetchChar s).setEncoder { (fetchChar s).encoder with nib := rev4 (digitOf (Memory.read s.msg s.encoder.cidx)) }

theorem numericChar_eq (s : State) : numericChar s =
    nextChar (pushBits (rev4 (digitOf (Memory.read s.msg s.encoder.cidx))) 0 4 (loadNibble s)) := rfl

theorem AfterChars.textChar {o L : Nat} {s0 s : State} {c : Nat} (hc : c < L) (h : AfterChars false o L s0 c s) :
    AfterChars false o L s0 (c + 1) (textChar s) where
  streamed := by
    have hs : Streamed o (streamBit false (Memory.read s0.msg) L) s0 (c * 7) (fetchChar s) :=
      h.streamed.of_encoder rfl rfl rfl rfl rfl rfl
    rw [textChar_eq, show (c + 1) * layoutBits false = c * 7 + 7 by simp [layoutBits]; omega]
    refine (hs.pushBits _ 7 fun i hi => ?_).nextChar
    rw [streamBit_text _ hc hi, h.cidx, h.only.msg, Nat.zero_add]
  cidx := by rw [textChar_eq]; simp only [nextChar, State.setEncoder, pushBits_cidx, fetchChar, h.cidx]
  only := h.only.trans (EncoderOnly.textChar s)

theorem AfterChars.numericChar {o L : Nat} {s0 s : State} {c : Nat} (hc : c < L) (h : AfterChars true o L s0 c s) :
    AfterChars true o L s0 (c + 1) (numericChar s) where
  streamed := by
    have hs : Streamed o (streamBit true (Memory.read s0.msg) L) s0 (c * 4) (loadNibble s) :=
      h.streamed.of_encoder rfl rfl rfl rfl rfl rfl
    rw [numericChar_eq, show (c + 1) * layoutBits true = c * 4 + 4 by simp [layoutBits]; omega]
    refine (hs.pushBits _ 4 fun i hi => ?_).nextChar
    rw [streamBit_numeric _ hc hi, h.cidx, h.only.msg, Nat.zero_add, getLsbD_rev4 _ _ hi]
  cidx := by rw [numericChar_eq]; simp only [nextChar, State.setEncoder, pushBits_cidx, loadNibble, fetchChar, h.cidx]
  only := h.only.trans (EncoderOnly.numericChar s)

theorem AfterChars.start (numeric : Bool) {o : Nat} (L : Nat) (s : State) (ho : o < 16) :
    AfterChars numeric o L s 0 (startEncoder o s) where
  streamed := ⟨by simp [startEncoder, streamWords], by simp [startEncoder, streamWords], by simp [startEncoder, streamWords],
    by simp [startEncoder]; omega, by simp [startEncoder],
    by rw [Nat.zero_mul]; rfl⟩
  cidx := rfl
  only := EncoderOnly.setEncoder s _

/-! The tail and the whole run. -/

/-- All that a whole run of either encoder does, from `OUTPTR` on: the words of the stream's data fields and their SYNCs are written
and counted, the position is (o + m) mod 16, and nothing outside the encoders, packer, Checksum Unit, `OUTPTR` and OUT differs. -/
structure EncoderRun (numeric : Bool) (o L : Nat) (s0 s : State) : Prop where
  out : s.out = OutSpace.place s0.out s0.assembler.outptr
    (streamWords o (streamBit numeric (Memory.read s0.msg) L) (layoutMessageWords numeric L))
  outptr : s.assembler.outptr = s0.assembler.outptr +
    (streamWords o (streamBit numeric (Memory.read s0.msg) L) (layoutMessageWords numeric L)).length
  wcount : s.encoder.wcount =
    (streamWords o (streamBit numeric (Memory.read s0.msg) L) (layoutMessageWords numeric L)).length
  wpos : s.encoder.wpos = (o + layoutMessageWords numeric L) % 16
  nbits : s.encoder.nbits ≤ 19
  cidx : s.encoder.cidx = L
  only : EncoderOnly s0 s

theorem AfterChars.flush {numeric : Bool} {o L : Nat} {s0 s : State} (h : AfterChars numeric o L s0 L s) :
    EncoderRun numeric o L s0 (flush s) := by
  obtain ⟨f, hf⟩ : ∃ f, f = streamBit numeric (Memory.read s0.msg) L := ⟨_, rfl⟩
  obtain ⟨kk, hkk⟩ : ∃ kk, kk = L * layoutBits numeric := ⟨_, rfl⟩
  have hst : Streamed o f s0 kk s := hf ▸ hkk ▸ h.streamed
  have hm : layoutMessageWords numeric L = (kk + 19) / 20 := hkk ▸ rfl
  have honly := h.only.trans (EncoderOnly.flush s)
  have hend : ∀ j, kk ≤ j → f j = false := fun j hj => hf ▸ streamBit_end numeric _ (hkk ▸ hj)
  have ha : s.assembler.outptr = s0.assembler.outptr + (streamWords o f (kk / 20)).length := by rw [hst.outptr]
  unfold Machine.flush at honly ⊢
  by_cases hn : 0 < s.encoder.nbits
  · rw [if_pos hn] at honly ⊢
    have hr : 0 < kk % 20 := hst.nbits ▸ hn
    have hmq : layoutMessageWords numeric L = kk / 20 + 1 := by omega
    have hfield : s.encoder.buf <<< (Config.BITS_PER_WORD - s.encoder.nbits) =
        packBits (fun j => f (20 * (kk / 20) + j)) 20 := by
      rw [hst.buf, hst.nbits]
      exact shift_packBits _ _ (by omega) fun j hj => hend _ (by omega)
    rw [hfield] at honly ⊢
    have hw : s.encoder.wpos ≤ 15 := by rw [hst.wpos]; omega
    rw [emitMsgWord_eq _ _ hw] at honly ⊢
    refine ⟨?_, ?_, ?_, ?_, ?_, ?_, honly⟩
    · simp only [← hf, hmq, streamWords, OutSpace.place_append, hst.out, ha, hst.wpos]
    · simp only [← hf, hmq, streamWords, ha, hst.wpos, List.length_append, List.length_cons]; omega
    · simp only [← hf, hmq, streamWords, hst.wcount, hst.wpos, List.length_append, List.length_cons]; omega
    · simp only [hmq, hst.wpos]; omega
    · simp only [hst.nbits]; omega
    · exact h.cidx
  · rw [if_neg hn] at honly ⊢
    have hr : kk % 20 = 0 := by have := hst.nbits; omega
    have hmq : layoutMessageWords numeric L = kk / 20 := by omega
    refine ⟨?_, ?_, ?_, ?_, ?_, h.cidx, honly⟩
    · rw [hmq, ← hf]; exact hst.out
    · rw [hmq, ← hf]; exact ha
    · rw [hmq, ← hf]; exact hst.wcount
    · rw [hmq]; exact hst.wpos
    · rw [hst.nbits]; omega

/-- R83: the text-mode Character Encoder. -/
theorem runText_encoded {o : Nat} (ho : o < 16) (s : State) : EncoderRun false o s.req.length s (runText o s) :=
  AfterChars.flush (loop_induct (P := fun c t => AfterChars false o s.req.length s c t) (fun _ hk _ h => h.textChar hk)
    (AfterChars.start false _ s ho))

/-- R84: the numeric-mode Character Encoder. -/
theorem runNumeric_encoded {o : Nat} (ho : o < 16) (s : State) : EncoderRun true o s.req.length s (runNumeric o s) :=
  AfterChars.flush (loop_induct (P := fun c t => AfterChars true o s.req.length s c t) (fun _ hk _ h => h.numericChar hk)
    (AfterChars.start true _ s ho))

end Sys2Proof.Machine
end

