-- ==== Sys2Proof/Laws/Transmission.lean ====
section
/-! SUPPORT. What the Frame Assembler's run leaves (43_frame_assembler.md R94 to R102): the list of words it writes, and where each of
them stands. -/

namespace Sys2Proof.Machine

theorem addressOffset_eq (a : BitVec 21) : addressOffset a = layoutPrefix a.toNat := by
  have h : (a &&& 7#21).toNat = a.toNat % 8 := by
    rw [BitVec.toNat_and]; exact Nat.and_two_pow_sub_one_eq_mod a.toNat 3
  simp only [addressOffset, layoutPrefix, h, Config.FRAME_SIZE, Nat.mul_comm]

theorem layoutPrefix_le (a : Nat) : layoutPrefix a ≤ 14 := by unfold layoutPrefix; omega

/-- The words of a transmission in order, with `pad` words of padding (R95 to R101). -/
def transmissionList (f : Nat → Bool) (p m : Nat) (addr : Word) (pad : Nat) : List Word :=
  List.replicate 18 Config.PREAMBLE_WORD ++ (Config.SYNC :: (List.replicate p Config.IDLE ++
    (addr :: (streamWords (p + 1) f m ++ (Config.IDLE :: List.replicate pad Config.IDLE)))))

/-- R101: the padding of a transmission of n codewords. -/
def layoutPadding (n : Nat) : Nat := 16 * ((n + 15) / 16) - n

/-- What a whole run leaves, from a request in the request registers. -/
structure Transmitted (s t : State) : Prop where
  out : t.out = OutSpace.place s.out 0 (transmissionList (streamBit s.req.numeric (Memory.read s.msg) s.req.length)
    (layoutPrefix s.req.address.toNat) (layoutMessageWords s.req.numeric s.req.length)
    (codewordOf (addressData s.req.address s.req.function))
    (layoutPadding (layoutCodewords s.req.numeric s.req.address.toNat s.req.length)))
  outptr : t.assembler.outptr = layoutWords s.req.numeric s.req.address.toNat s.req.length
  phase : t.assembler.phase = .done
  start : t.assembler.start = 18
  prefixLen : t.assembler.prefixLen = layoutPrefix s.req.address.toNat
  req : t.req = s.req
  res : t.res = s.res
  calculator : t.calculator = s.calculator
  msg : t.msg = s.msg
  outCapacity : t.outCapacity = s.outCapacity
  params : t.params = s.params
  sink : t.sink = s.sink
  inbox : t.inbox = s.inbox
  freeIndex : t.freeIndex = s.freeIndex
  outEpoch : t.outEpoch = s.outEpoch

/-! The steps in order. -/

/-- R95 to R98: the state before step 5. -/
def addressed (s : State) : State :=
  { s with
    checksum := crcRegs (addressData s.req.address s.req.function)
    packer := ⟨packFull (addressData s.req.address s.req.function), packParity (addressData s.req.address s.req.function)⟩
    out := OutSpace.place s.out 0 (List.replicate 18 Config.PREAMBLE_WORD ++ (Config.SYNC ::
      (List.replicate (layoutPrefix s.req.address.toNat) Config.IDLE ++
        [codewordOf (addressData s.req.address s.req.function)])))
    assembler := ⟨.s5Message, 20 + layoutPrefix s.req.address.toNat, 18, layoutPrefix s.req.address.toNat,
      layoutPrefix s.req.address.toNat⟩ }

theorem loop_succ' (n : Nat) (f : State → State) (s : State) : loop (n + 1) f s = loop n f (f s) := rfl

theorem four_steps (s : State) : loop 4 phaseStep (startTransmission s) = addressed s := by
  simp only [loop, startTransmission, clearOutptr, phaseStep, setPhase, State.setAssembler, preambleStep, syncStep, prefixStep,
    addressStep, emitRun_eq, emit_eq, addressOffset_eq, runPacker, runCrc, State.setChecksum, State.setPacker,
    Config.PREAMBLE_WORDS, addressed]
  simp only [OutSpace.place_append, List.length_replicate, OutSpace.place, Nat.zero_add]
  congr 2
  omega

theorem messageStep_run (s : State) (h : s.assembler.prefixLen ≤ 14) :
    EncoderRun s.req.numeric (s.assembler.prefixLen + 1) s.req.length s (messageStep s) := by
  unfold messageStep
  split_ifs with hn
  · rw [hn]; exact runNumeric_encoded (by omega) s
  · rw [Bool.not_eq_true] at hn; rw [hn]; exact runText_encoded (by omega) s

/-- R100, R101: the last three steps, from step 6 on. -/
theorem last_steps (t : State) (h : t.assembler.phase = .s6End) (hst : t.assembler.start = 18) {n : Nat} (hn : 2 ≤ n)
    (hptr : t.assembler.outptr = 18 + n + (n - 1) / 16) :
    loop 2 phaseStep t = { t with
      out := OutSpace.place t.out t.assembler.outptr (Config.IDLE :: List.replicate (layoutPadding n) Config.IDLE)
      assembler := { t.assembler with phase := .done, outptr := 18 + 17 * ((n + 15) / 16), k := layoutPadding n } } := by
  have h6 : phaseStep t = setPhase .s7Pad (endStep t) := by unfold phaseStep; rw [h]
  have h7 : phaseStep (setPhase .s7Pad (endStep t)) = setPhase .done (padStep (setPhase .s7Pad (endStep t))) := rfl
  have hpad : paddingWords (setPhase .s7Pad (endStep t)) = layoutPadding n := by
    simp only [paddingWords, setPhase, endStep, emit_eq, State.setAssembler, hptr, hst, Config.BATCH_WORDS, layoutPadding]
    obtain ⟨q, r, hr, rfl⟩ : ∃ q r, r < 16 ∧ n = 16 * q + r + 1 := ⟨(n - 1) / 16, (n - 1) % 16, by omega, by omega⟩
    rw [show (16 * q + r + 1 - 1) / 16 = q by omega, show (16 * q + r + 1 + 15) / 16 = q + 1 by omega]
    rw [show 18 + (16 * q + r + 1) + q + 1 - 18 = 17 * q + (r + 2) by omega]
    omega
  rw [loop_succ', loop_succ', h6, h7, padStep, hpad, emitRun_eq]
  have he : 18 + n + (n - 1) / 16 + 1 + layoutPadding n = 18 + 17 * ((n + 15) / 16) := by unfold layoutPadding; omega
  simp only [loop, setPhase, endStep, emit_eq, State.setAssembler, OutSpace.place, hptr, he]

theorem addressed_out (s : State) : (addressed s).out = OutSpace.place (OutSpace.place s.out 0 (List.replicate 18 Config.PREAMBLE_WORD ++
    (Config.SYNC :: List.replicate (layoutPrefix s.req.address.toNat) Config.IDLE))) (19 + layoutPrefix s.req.address.toNat)
      [codewordOf (addressData s.req.address s.req.function)] := by
  simp only [addressed, ← List.cons_append, ← List.append_assoc]
  rw [OutSpace.place_append]
  simp only [List.length_append, List.length_replicate, List.length_cons]
  congr 1
  omega

/-- R94: the whole run. -/
theorem runTransmission_spec (s : State) : Transmitted s (runTransmission s) := by
  obtain ⟨u, hu⟩ : ∃ u, u = addressed s := ⟨_, rfl⟩
  obtain ⟨t, ht⟩ : ∃ t, t = messageStep u := ⟨_, rfl⟩
  obtain ⟨p, hp⟩ : ∃ p, p = layoutPrefix s.req.address.toNat := ⟨_, rfl⟩
  obtain ⟨m, hm⟩ : ∃ m, m = layoutMessageWords s.req.numeric s.req.length := ⟨_, rfl⟩
  obtain ⟨addr, haddr⟩ : ∃ w, w = codewordOf (addressData s.req.address s.req.function) := ⟨_, rfl⟩
  have hp14 : p ≤ 14 := hp ▸ layoutPrefix_le _
  have hureq : u.req = s.req := hu ▸ rfl
  have humsg : u.msg = s.msg := hu ▸ rfl
  have hupl : u.assembler.prefixLen = p := by rw [hu, hp]; rfl
  have huop : u.assembler.outptr = 20 + p := by rw [hu, hp]; rfl
  have hust : u.assembler.start = 18 := hu ▸ rfl
  have huout : u.out = OutSpace.place (OutSpace.place s.out 0 (List.replicate 18 Config.PREAMBLE_WORD ++
    (Config.SYNC :: List.replicate p Config.IDLE))) (19 + p) [addr] := by rw [hu, hp, haddr]; exact addressed_out s
  have hn : layoutCodewords s.req.numeric s.req.address.toNat s.req.length = p + m + 2 := by rw [hp, hm]; rfl
  have hrun := messageStep_run u (by rw [hupl]; exact hp14)
  rw [← ht] at hrun
  obtain ⟨hout, hptr, -, -, -, -, honly⟩ := hrun
  have hlen := length_streamWords (show p + 1 < 16 by omega)
    (streamBit s.req.numeric (Memory.read s.msg) s.req.length) m
  rw [hureq, humsg, hupl, huop, ← hm] at hout hptr
  rw [hlen] at hptr
  have htst : t.assembler.start = 18 := by have := congrArg AssemblerRegs.start honly.assembler; exact this.trans hust
  have htpl : t.assembler.prefixLen = p := by
    have := congrArg AssemblerRegs.prefixLen honly.assembler; exact this.trans hupl
  have hsplit : runTransmission s = loop 2 phaseStep (setPhase .s6End t) := by
    have h1 : runTransmission s = loop 3 phaseStep (loop 4 phaseStep (startTransmission s)) := rfl
    have h2 : phaseStep u = setPhase .s6End (messageStep u) := by unfold phaseStep; rw [hu]; rfl
    rw [h1, four_steps, ← hu, loop_succ', h2, ← ht]
  have hlast := last_steps (setPhase .s6End t) rfl htst (n := p + m + 2) (by omega)
    (show t.assembler.outptr = _ by rw [hptr, show p + m + 2 - 1 = p + 1 + m by omega]; omega)
  rw [hsplit, hlast]
  refine ⟨?_, ?_, rfl, htst, htpl.trans hp, honly.req.trans hureq, ?_, ?_, honly.msg.trans humsg, ?_, ?_, ?_, ?_, ?_, ?_⟩
  · rw [hn, ← hp, ← hm, ← haddr]
    show OutSpace.place t.out t.assembler.outptr _ = _
    rw [hout, hptr, huout]
    have e1 : 20 + p = 19 + p + [addr].length := by simp; omega
    have e2 : 20 + p + (m + (p + 1 + m) / 16) = 19 + p + [addr].length +
      (streamWords (p + 1) (streamBit s.req.numeric (Memory.read s.msg) s.req.length) m).length := by
      rw [hlen]; simp; omega
    rw [e2, e1, ← OutSpace.place_append, ← OutSpace.place_append]
    have e3 : 19 + p = 0 + (List.replicate 18 Config.PREAMBLE_WORD ++
      (Config.SYNC :: List.replicate p Config.IDLE)).length := by simp; omega
    rw [e3, ← OutSpace.place_append]
    simp [transmissionList]
  · rw [layoutWords, layoutBatches, hn]
  all_goals first
    | exact honly.res.trans (hu ▸ rfl)
    | exact honly.calculator.trans (hu ▸ rfl)
    | exact honly.outCapacity.trans (hu ▸ rfl)
    | exact honly.params.trans (hu ▸ rfl)
    | exact honly.sink.trans (hu ▸ rfl)
    | exact honly.inbox.trans (hu ▸ rfl)
    | exact honly.freeIndex.trans (hu ▸ rfl)
    | exact honly.outEpoch.trans (hu ▸ rfl)

end Sys2Proof.Machine
end

