-- ==== Sys2Proof/Laws/Layout.lean ====
section
/-! SUPPORT. Where each word of a transmission stands (20_memory.md R36, 43_frame_assembler.md R102), and the operand data as
concatenations (30_encoding.md R43, R44). -/

namespace Sys2Proof.Machine

/-- R44: the message word's data is the flag above the field. -/
theorem messageData_eq (f : Field20) : messageData f = 1#1 ++ f := by
  refine BitVec.eq_of_getLsbD_eq fun i hi => ?_
  simp only [messageData, Config.FLAG_MESSAGE, BitVec.getLsbD_or, BitVec.getLsbD_setWidth, BitVec.getLsbD_append, hi, decide_true,
    Bool.true_and]
  by_cases h : i < 20
  · have : (0x100000#21).getLsbD i = false := by
      have : ∀ i < 20, (0x100000#21).getLsbD i = false := by decide
      exact this i h
    simp [h, this]
  · have : i = 20 := by omega
    subst this
    simp [BitVec.getLsbD_of_ge]

/-- R43: the address word's data is flag 0, the 18 high address bits, the function bits. -/
theorem addressData_eq (a : BitVec 21) (fn : BitVec 2) : addressData a fn = 0#1 ++ a.extractLsb' 3 18 ++ fn := by
  refine BitVec.eq_of_getLsbD_eq fun i hi => ?_
  simp only [addressData, BitVec.getLsbD_or, BitVec.getLsbD_setWidth, BitVec.getLsbD_append, BitVec.getLsbD_shiftLeft,
    BitVec.getLsbD_ushiftRight, BitVec.getLsbD_extractLsb', hi, decide_true, Bool.true_and]
  by_cases h2 : i < 2
  · simp [h2]
  · by_cases h18 : i - 2 < 18
    · have : 3 + (i - 2) = i + 1 := by omega
      simp [h2, h18, BitVec.getLsbD_of_ge fn i (by omega)]
    · have hi20 : i = 20 := by omega
      subst hi20
      simp

theorem extract_high_address {a : Nat} (ha : a < 2 ^ 21) :
    (BitVec.ofNat 21 a).extractLsb' 3 18 = BitVec.ofNat 18 (a / 8) := by
  apply BitVec.eq_of_toNat_eq
  simp only [BitVec.extractLsb'_toNat, BitVec.toNat_ofNat, Nat.shiftRight_eq_div_pow]
  omega

/-- R98: the address word of the closed form. -/
theorem layoutAddressWord_eq {a : Nat} (ha : a < 2 ^ 21) (fn : Nat) :
    codewordOf (addressData (BitVec.ofNat 21 a) (BitVec.ofNat 2 fn)) = layoutAddressWord a fn := by
  rw [addressData_eq, extract_high_address ha, layoutAddressWord]

section
variable (f : Nat → Bool) {p m : Nat} (hp : p ≤ 14) (addr : Word)
include hp

theorem length_transmissionList (pad : Nat) :
    (transmissionList f p m addr pad).length = 18 + (1 + (p + (1 + (m + (p + 1 + m) / 16 + (1 + pad))))) := by
  simp only [transmissionList, List.length_append, List.length_cons, List.length_replicate, length_streamWords (show p + 1 < 16 by omega)]
  omega

omit hp in
/-- R36: the preamble. -/
theorem transmissionList_preamble (pad : Nat) {k : Nat} (hk : k < 18) :
    (transmissionList f p m addr pad)[k]? = some Config.PREAMBLE_WORD := by
  rw [transmissionList, List.getElem?_append_left (by simpa using hk), List.getElem?_replicate, if_pos hk]

omit hp in
theorem transmissionList_tail (pad j : Nat) : (transmissionList f p m addr pad)[18 + j]? =
    (Config.SYNC :: (List.replicate p Config.IDLE ++ (addr :: (streamWords (p + 1) f m ++
      (Config.IDLE :: List.replicate pad Config.IDLE)))))[j]? := by
  rw [transmissionList, List.getElem?_append_right (by simp)]
  simp

omit hp in
theorem transmissionList_body (pad j : Nat) : (transmissionList f p m addr pad)[18 + (1 + (p + (1 + j)))]? =
    (streamWords (p + 1) f m ++ (Config.IDLE :: List.replicate pad Config.IDLE))[j]? := by
  rw [transmissionList_tail f, Nat.add_comm 1, List.getElem?_cons_succ, List.getElem?_append_right (by simp)]
  simp only [List.length_replicate, Nat.add_sub_cancel_left]
  rw [Nat.add_comm 1, List.getElem?_cons_succ]

/-- R102: the codeword at position i of C. -/
theorem transmissionList_codeword {i : Nat} (hi : i < 16 * ((p + m + 2 + 15) / 16)) :
    (transmissionList f p m addr (layoutPadding (p + m + 2)))[18 + 17 * (i / 16) + 1 + i % 16]? =
      some (if i < p then Config.IDLE else if i = p then addr
        else if i < p + 1 + m then codewordOf (messageData (packBits (fun j => f (20 * (i - p - 1) + j)) 20)) else Config.IDLE) := by
  have hidx : 18 + 17 * (i / 16) + 1 + i % 16 = 18 + (1 + (i + i / 16)) := by omega
  rw [hidx]
  by_cases h1 : i < p
  · have h0 : i / 16 = 0 := by omega
    rw [if_pos h1, transmissionList_tail f, h0, Nat.add_zero, Nat.add_comm 1, List.getElem?_cons_succ,
      List.getElem?_append_left (by simpa using h1)]
    simp [h1]
  · by_cases h2 : i = p
    · have h0 : i / 16 = 0 := by omega
      rw [if_neg h1, if_pos h2, transmissionList_tail f, h0, h2, Nat.add_zero, Nat.add_comm 1, List.getElem?_cons_succ,
        List.getElem?_append_right (by simp)]
      simp
    · obtain ⟨w, rfl⟩ : ∃ w, i = p + 1 + w := ⟨i - p - 1, by omega⟩
      rw [if_neg h1, if_neg h2,
        show 18 + (1 + (p + 1 + w + (p + 1 + w) / 16)) = 18 + (1 + (p + (1 + (w + (p + 1 + w) / 16)))) by omega,
        transmissionList_body f]
      have hlen := length_streamWords (show p + 1 < 16 by omega) f m
      by_cases h3 : p + 1 + w < p + 1 + m
      · have hw : w < m := by omega
        have hd : (p + 1 + w) / 16 ≤ (p + 1 + m) / 16 := Nat.div_le_div_right (by omega)
        rw [if_pos h3, List.getElem?_append_left (by omega), streamWords_message (by omega) f hw]
        rw [show p + 1 + w - p - 1 = w by omega]
      · have hsame : (p + 1 + w) / 16 = (p + 1 + m) / 16 := by omega
        rw [if_neg h3, List.getElem?_append_right (by omega), hlen, hsame,
          show w + (p + 1 + m) / 16 - (m + (p + 1 + m) / 16) = w - m by omega]
        have hb : w - m < layoutPadding (p + m + 2) + 1 := by unfold layoutPadding; omega
        rw [show Config.IDLE :: List.replicate (layoutPadding (p + m + 2)) Config.IDLE =
          List.replicate (layoutPadding (p + m + 2) + 1) Config.IDLE from rfl, List.getElem?_replicate, if_pos hb]

/-- R102: the SYNC of batch j. -/
theorem transmissionList_sync (pad : Nat) {j : Nat} (hj : j < (p + m + 2 + 15) / 16) :
    (transmissionList f p m addr pad)[18 + 17 * j]? = some Config.SYNC := by
  rcases Nat.eq_zero_or_pos j with rfl | hpos
  · rw [transmissionList_tail f]; rfl
  · obtain ⟨w, hw⟩ : ∃ w, 16 * j = p + 2 + w := ⟨16 * j - p - 2, by omega⟩
    have hwm : w < m := by omega
    have h15 : (p + 1 + w) % 16 = 15 := by omega
    have hd : (p + 1 + w) / 16 = j - 1 := by omega
    have hs := streamWords_sync (show p + 1 < 16 by omega) f hwm h15
    have hlen := length_streamWords (show p + 1 < 16 by omega) f m
    have hd2 : (p + 1 + (w + 1)) / 16 ≤ (p + 1 + m) / 16 := Nat.div_le_div_right (by omega)
    have hd3 : (p + 1 + (w + 1)) / 16 = (p + 1 + w) / 16 + 1 := by omega
    rw [show 18 + 17 * j = 18 + (1 + (p + (1 + (w + (p + 1 + w) / 16 + 1)))) by omega, transmissionList_body f,
      List.getElem?_append_left (by omega), hs]

end

end Sys2Proof.Machine
end

