-- ==== Sys2Proof/Laws/Sizes.lean ====
section
/-! SUPPORT. The machine's sizing formulas against the closed forms (42_character_encoders.md R85, 44_length_calculator.md R108), and the
admission of each request in those terms. -/

namespace Sys2Proof.Machine

theorem bitsPerChar_eq (numeric : Bool) : bitsPerChar numeric = layoutBits numeric := by cases numeric <;> rfl

theorem messageWords_eq (numeric : Bool) (length : Nat) :
    messageWords numeric length = layoutMessageWords numeric length := by
  simp [messageWords, ceilDiv, layoutMessageWords, bitsPerChar_eq, Config.BITS_PER_WORD]

theorem encoderWords_eq (numeric : Bool) (offset length : Nat) :
    encoderWords numeric offset length = layoutEncoderWords numeric offset length := by
  simp [encoderWords, layoutEncoderWords, messageWords_eq, Config.BATCH_SIZE]

theorem transmissionWords_eq (numeric : Bool) (a : BitVec 21) (length : Nat) :
    transmissionWords numeric a length = layoutWords numeric a.toNat length := by
  simp only [transmissionWords, codewordCount, layoutWords, layoutBatches, layoutCodewords, addressOffset_eq, messageWords_eq, roundUp,
    ceilDiv, Config.BATCH_SIZE, Config.PREAMBLE_WORDS]
  omega

theorem toNat_address {a : Nat} (ha : a < 2 ^ 21) : (BitVec.ofNat 21 a).toNat = a := by simp; omega

theorem toNat_offset {o : Nat} (ho : o < 2 ^ 4) : (BitVec.ofNat 4 o).toNat = o := by simp; omega

/-- R108: the calculator's seven assignments leave the formula's value in `NW` and nothing else changed. -/
theorem runCalculator_eq (numeric : Bool) (s : State) :
    runCalculator numeric s = { s with calculator := ⟨transmissionWords numeric s.req.address s.req.length⟩ } := by
  simp only [runCalculator, setNW, State.setCalculator, transmissionWords, codewordCount, messageWords]

@[simp] theorem within_zero (b : Option Nat) : within 0 b := by cases b <;> simp [within]

end Sys2Proof.Machine
end

