-- ==== Sys2Proof/Laws/Requests.lean ====
section
/-! SUPPORT. Every request in one shape: the checks of 60_exceptions.md R120 on the instruction's own sizes, then its operation; and what
each operation leaves alone. -/

namespace Sys2Proof.Machine

/-- The operation of a request once admitted; a word format has none. -/
def performOf : Instr → State → State
  | .crc d => performCrc d
  | .parity w => performParity w
  | .codeword d => performCodeword d
  | .digit c => performDigit c
  | .text o L => performText o L
  | .numeric o L => performNumeric o L
  | .transmit n a f L => performTransmit n a f L
  | .addroff a => performAddroff a
  | .textlen a L => performTextlen a L
  | .numlen a L => performNumlen a L
  | .nop => performNop
  | .sync | .idle | .preambleWord | .addressWord _ _ _ _ | .messageWord _ _ _ => id

theorem checkRequest_wide_irrelevant {w : Nat} {n : Nat} (h : ¬ n < 2 ^ w) (b : Bool) (c d : List Nat) (x y : Nat) (s : State) :
    checkRequest (fitsPort w n && b) c x s = checkRequest (fitsPort w n && b) d y s := by
  simp [checkRequest, fitsPort, h]

/-- A request is its checks, then its operation (R120, R114). -/
theorem exec_request (i : Instr) (s : State) (h : i.isRequest = true) :
    exec i s = complete (checkRequest i.wellFormed i.boundedCounts i.wordsWritten s) (performOf i) s := by
  cases i with
  | crc d => rfl
  | parity w => rfl
  | codeword d => rfl
  | digit c => rfl
  | text o L => simp only [exec, execText, encoderWords_eq, Instr.wellFormed, Instr.boundedCounts, Instr.wordsWritten, performOf]
  | numeric o L =>
    simp only [exec, execNumeric, encoderWords_eq, Instr.wellFormed, Instr.boundedCounts, Instr.wordsWritten, performOf]
  | transmit n a f L =>
    simp only [exec, execTransmit, transmissionWords_eq, Instr.wellFormed, Instr.boundedCounts, Instr.wordsWritten, performOf]
    by_cases ha : a < 2 ^ 21
    · rw [toNat_address ha]
    · rw [checkRequest_wide_irrelevant ha]
  | addroff a => rfl
  | textlen a L =>
    simp only [exec, execTextlen, transmissionWords_eq, Instr.wellFormed, Instr.boundedCounts, Instr.wordsWritten, performOf]
    by_cases ha : a < 2 ^ 21
    · rw [toNat_address ha]
    · rw [← Bool.and_true (fitsPort 21 a), checkRequest_wide_irrelevant ha]
  | numlen a L =>
    simp only [exec, execNumlen, transmissionWords_eq, Instr.wellFormed, Instr.boundedCounts, Instr.wordsWritten, performOf]
    by_cases ha : a < 2 ^ 21
    · rw [toNat_address ha]
    · rw [← Bool.and_true (fitsPort 21 a), checkRequest_wide_irrelevant ha]
  | nop => rfl
  | sync | idle | preambleWord | addressWord _ _ _ _ | messageWord _ _ _ => simp [Instr.isRequest] at h

/-- An admissible request runs its operation (R113). -/
theorem exec_admissible {i : Instr} {s : State} (h : i.isRequest = true) (ha : admissible i s) :
    exec i s = .next (performOf i s) := by
  rw [exec_request i s h, checkRequest_of_ok ha.1 ha.2.1 ha.2.2]; rfl

/-- A request that is not is rejected, with the reason the checks find. -/
theorem exec_cases (i : Instr) (s : State) (h : i.isRequest = true) :
    (admissible i s ∧ exec i s = .next (performOf i s)) ∨ (¬ admissible i s ∧ ∃ r, exec i s = .next (reject r s)) := by
  by_cases ha : admissible i s
  · exact .inl ⟨ha, exec_admissible h ha⟩
  · refine .inr ⟨ha, ?_⟩
    rw [exec_request i s h]
    rcases checkRequest_cases i.wellFormed i.boundedCounts i.wordsWritten s with ⟨-, e⟩ | ⟨-, -, e⟩ | ⟨-, -, -, e⟩ | ⟨h1, h2, h3, -⟩
    · exact ⟨_, by rw [e]; rfl⟩
    · exact ⟨_, by rw [e]; rfl⟩
    · exact ⟨_, by rw [e]; rfl⟩
    · exact absurd ⟨h1, h2, h3⟩ ha

/-- Every operation ends `OK` (R113, R114). -/
theorem performOf_ok (i : Instr) (s : State) (h : i.isRequest = true) :
    (performOf i s).res.status = statusOK ∧ (performOf i s).res.code = 0#4 := by
  cases i with
  | crc d => exact ⟨rfl, rfl⟩
  | parity w => exact ⟨rfl, rfl⟩
  | codeword d => exact ⟨rfl, rfl⟩
  | digit c => exact ⟨rfl, rfl⟩
  | text o L => exact ⟨rfl, rfl⟩
  | numeric o L => exact ⟨rfl, rfl⟩
  | transmit n a f L => exact ⟨rfl, rfl⟩
  | addroff a => exact ⟨rfl, rfl⟩
  | textlen a L => exact ⟨rfl, rfl⟩
  | numlen a L => exact ⟨rfl, rfl⟩
  | nop => exact ⟨rfl, rfl⟩
  | sync | idle | preambleWord | addressWord _ _ _ _ | messageWord _ _ _ => simp [Instr.isRequest] at h

/-! What the operations that write OUT do. -/

/-- TEXT once admitted: the encoder ran from the state with its operands loaded and the cursor at 0, and the count is its words. -/
theorem performText_run {o : Nat} (ho : o < 2 ^ 4) (L : Nat) (s : State) :
    ∃ u t, u = clearOutptr (s.setReq { s.req with op := 4#4, offset := BitVec.ofNat 4 o, length := L }) ∧
      EncoderRun false o L u t ∧ performText o L s = finishCount t.encoder.wcount t := by
  refine ⟨_, _, rfl, ?_, rfl⟩
  have h := runText_encoded (o := (BitVec.ofNat 4 o).toNat) (BitVec.isLt _)
    (clearOutptr (s.setReq { s.req with op := 4#4, offset := BitVec.ofNat 4 o, length := L }))
  rw [toNat_offset ho] at h
  simp only [State.setReq_req, toNat_offset ho]
  exact h

/-- NUMERIC likewise. -/
theorem performNumeric_run {o : Nat} (ho : o < 2 ^ 4) (L : Nat) (s : State) :
    ∃ u t, u = clearOutptr (s.setReq { s.req with op := 5#4, offset := BitVec.ofNat 4 o, length := L }) ∧
      EncoderRun true o L u t ∧ performNumeric o L s = finishCount t.encoder.wcount t := by
  refine ⟨_, _, rfl, ?_, rfl⟩
  have h := runNumeric_encoded (o := (BitVec.ofNat 4 o).toNat) (BitVec.isLt _)
    (clearOutptr (s.setReq { s.req with op := 5#4, offset := BitVec.ofNat 4 o, length := L }))
  rw [toNat_offset ho] at h
  simp only [State.setReq_req, toNat_offset ho]
  exact h

/-- TRANSMIT once admitted. -/
theorem performTransmit_run (n : Bool) (a f L : Nat) (s : State) :
    ∃ t, Transmitted (loadTransmit n a f L s) t ∧ performTransmit n a f L s = finishCount t.assembler.outptr t :=
  ⟨_, runTransmission_spec _, rfl⟩

end Sys2Proof.Machine
end

