-- ==== Sys2Proof/Laws/Ranges.lean ====
section
/-! SUPPORT. The working registers stay in the ranges the spec states for them (10_state.md R14, R16, R18, R19, R21), and OUT in its canonical
form, through every operation that writes them. -/

namespace Sys2Proof.Machine

/-- OUT in canonical form, the Checksum Unit's and the encoders' registers in range. -/
structure InRange (s : State) : Prop where
  out : s.out.wf = true
  col : s.checksum.col ≤ 21
  bidx : s.encoder.bidx ≤ 6
  nbits : s.encoder.nbits ≤ 19
  wpos : s.encoder.wpos ≤ 15

theorem InRange.congr {s t : State} (h : InRange s) (ho : t.out = s.out) (hc : t.checksum = s.checksum)
    (he : t.encoder = s.encoder) : InRange t :=
  ⟨ho ▸ h.out, hc ▸ h.col, he ▸ h.bidx, he ▸ h.nbits, he ▸ h.wpos⟩

theorem InRange.emit {s : State} (h : InRange s) (w : Word) : InRange (emit w s) :=
  ⟨OutSpace.wf_write _ w h.out, h.col, h.bidx, h.nbits, h.wpos⟩

theorem InRange.runCrc {s : State} (h : InRange s) (d : Data21) : InRange (runCrc d s) :=
  ⟨h.out, le_of_eq (crcRegs_col d), h.bidx, h.nbits, h.wpos⟩

theorem InRange.runPacker {s : State} (h : InRange s) (d : Data21) : InRange (runPacker d s) :=
  (h.runCrc d).congr rfl rfl rfl

theorem InRange.emitMsgWord {s : State} (h : InRange s) (f : Field20) : InRange (emitMsgWord f s) := by
  rw [emitMsgWord_eq f s h.wpos]
  exact ⟨OutSpace.wf_place _ _ h.out, le_of_eq (crcRegs_col _), h.bidx, h.nbits, by show (s.encoder.wpos + 1) % 16 ≤ 15; omega⟩

theorem emitMsgWord_bidx (f : Field20) (s : State) : (emitMsgWord f s).encoder.bidx = s.encoder.bidx := by
  unfold emitMsgWord advancePosition
  dsimp only
  split_ifs <;> rfl

theorem InRange.pushBit {s : State} (h : InRange s) (b : Bool) : InRange (pushBit b s) := by
  unfold Machine.pushBit
  by_cases hn : s.encoder.nbits + 1 = 20
  · simp only [State.setEncoder, hn, Config.BITS_PER_WORD, if_true]
    rw [emitMsgWord_eq _ _ (by exact h.wpos)]
    exact ⟨OutSpace.wf_place _ _ h.out, le_of_eq (crcRegs_col _), h.bidx, Nat.zero_le _, by
      show (s.encoder.wpos + 1) % 16 ≤ 15; omega⟩
  · simp only [State.setEncoder, hn, Config.BITS_PER_WORD, if_false]
    have := h.nbits
    exact ⟨h.out, h.col, h.bidx, by show s.encoder.nbits + 1 ≤ 19; omega, h.wpos⟩

theorem InRange.flush {s : State} (h : InRange s) : InRange (flush s) := by
  unfold Machine.flush
  split_ifs
  · exact h.emitMsgWord _
  · exact h

theorem InRange.setEncoder {s : State} (h : InRange s) {e : EncoderRegs} (hb : e.bidx ≤ 6) (hn : e.nbits ≤ 19)
    (hw : e.wpos ≤ 15) : InRange (s.setEncoder e) := ⟨h.out, h.col, hb, hn, hw⟩

theorem InRange.pushBits {w : Nat} (v : BitVec w) (n : Nat) :
    ∀ {j : Nat} {s : State}, j + n ≤ 7 → InRange s → InRange (pushBits v j n s) := by
  induction n with
  | zero => intro j s _ h; exact h
  | succ n ih =>
    intro j s hj h
    rw [Machine.pushBits, pushBitOf]
    exact ih (by omega) ((h.setEncoder (e := { s.encoder with bidx := j }) (by show j ≤ 6; omega) h.nbits h.wpos).pushBit _)

theorem InRange.nextChar {s : State} (h : InRange s) : InRange (nextChar s) :=
  h.setEncoder (e := { s.encoder with cidx := s.encoder.cidx + 1 }) h.bidx h.nbits h.wpos

theorem InRange.fetchChar {s : State} (h : InRange s) : InRange (fetchChar s) :=
  h.setEncoder (e := { s.encoder with char := Memory.read s.msg s.encoder.cidx }) h.bidx h.nbits h.wpos

theorem InRange.textChar {s : State} (h : InRange s) : InRange (textChar s) := by
  rw [textChar_eq]
  exact (h.fetchChar.pushBits _ 7 (by omega)).nextChar

theorem InRange.numericChar {s : State} (h : InRange s) : InRange (numericChar s) := by
  have h1 : InRange (loadNibble s) := h.setEncoder
    (e := { s.encoder with char := Memory.read s.msg s.encoder.cidx, nib := rev4 (digitOf (Memory.read s.msg s.encoder.cidx)) })
    h.bidx h.nbits h.wpos
  rw [numericChar_eq]
  exact (h1.pushBits _ 4 (by omega)).nextChar

theorem InRange.loop {f : State → State} (hf : ∀ s, InRange s → InRange (f s)) (n : Nat) :
    ∀ {s : State}, InRange s → InRange (loop n f s) := by
  induction n with
  | zero => exact fun h => h
  | succ n ih => exact fun h => ih (hf _ h)

theorem InRange.startEncoder {s : State} (h : InRange s) {o : Nat} (ho : o ≤ 15) : InRange (startEncoder o s) :=
  ⟨h.out, h.col, Nat.zero_le _, Nat.zero_le _, ho⟩

theorem InRange.runText {s : State} (h : InRange s) {o : Nat} (ho : o ≤ 15) : InRange (runText o s) :=
  (InRange.loop (fun _ => InRange.textChar) _ (h.startEncoder ho)).flush

theorem InRange.runNumeric {s : State} (h : InRange s) {o : Nat} (ho : o ≤ 15) : InRange (runNumeric o s) :=
  (InRange.loop (fun _ => InRange.numericChar) _ (h.startEncoder ho)).flush

theorem InRange.emitRun {s : State} (h : InRange s) (n : Nat) (w : Word) : InRange (emitRun n w s) := by
  rw [emitRun_eq]
  exact ⟨OutSpace.wf_place _ _ h.out, h.col, h.bidx, h.nbits, h.wpos⟩

/-- `PREFIX` is 0..14 and even (R21). -/
def PrefixInRange (s : State) : Prop := s.assembler.prefixLen ≤ 14 ∧ s.assembler.prefixLen % 2 = 0

theorem PrefixInRange.congr {s t : State} (h : PrefixInRange s) (he : t.assembler.prefixLen = s.assembler.prefixLen) :
    PrefixInRange t := by rw [PrefixInRange, he]; exact h

theorem addressOffset_inRange (a : BitVec 21) : addressOffset a ≤ 14 ∧ addressOffset a % 2 = 0 := by
  rw [addressOffset_eq, layoutPrefix]; omega

theorem InRange.setAssembler {s : State} (h : InRange s) (a : AssemblerRegs) : InRange (s.setAssembler a) :=
  h.congr rfl rfl rfl

theorem InRange.setPhase {s : State} (h : InRange s) (p : Phase) : InRange (setPhase p s) := h.setAssembler _

theorem emitRun_prefixLen (n : Nat) (w : Word) (s : State) :
    (emitRun n w s).assembler.prefixLen = s.assembler.prefixLen := by rw [emitRun_eq]

theorem messageStep_only (s : State) : EncoderOnly s (messageStep s) := by
  unfold messageStep
  split_ifs
  · exact EncoderOnly.runNumeric _ s
  · exact EncoderOnly.runText _ s

theorem messageStep_prefixLen (s : State) : (messageStep s).assembler.prefixLen = s.assembler.prefixLen := by
  have h := congrArg AssemblerRegs.prefixLen (messageStep_only s).assembler
  exact h

theorem InRange.messageStep {s : State} (h : InRange s) (hp : PrefixInRange s) : InRange (messageStep s) := by
  have := hp.1
  unfold Machine.messageStep
  split_ifs
  · exact h.runNumeric (by omega)
  · exact h.runText (by omega)

/-- One step of the Frame Assembler keeps the ranges (R94). -/
theorem InRange.phaseStep {s : State} (h : InRange s) (hp : PrefixInRange s) :
    InRange (phaseStep s) ∧ PrefixInRange (phaseStep s) := by
  unfold Machine.phaseStep
  split
  · exact ⟨(h.emitRun _ _).setPhase _, hp.congr (emitRun_prefixLen _ _ s)⟩
  · exact ⟨((h.setAssembler _).emit _).setPhase _, hp.congr rfl⟩
  · refine ⟨((h.setAssembler _).emitRun _ _).setPhase _, ?_⟩
    have h1 : PrefixInRange (s.setAssembler { s.assembler with prefixLen := addressOffset s.req.address }) :=
      addressOffset_inRange s.req.address
    exact h1.congr (emitRun_prefixLen _ _ _)
  · exact ⟨((h.runPacker _).emit _).setPhase _, hp.congr rfl⟩
  · exact ⟨(h.messageStep hp).setPhase _, hp.congr (messageStep_prefixLen s)⟩
  · exact ⟨(h.emit _).setPhase _, hp.congr rfl⟩
  · exact ⟨(h.emitRun _ _).setPhase _, hp.congr (emitRun_prefixLen _ _ s)⟩
  · exact ⟨h, hp⟩

theorem InRange.phaseSteps (n : Nat) : ∀ {s : State}, InRange s → PrefixInRange s →
    InRange (Machine.loop n Machine.phaseStep s) ∧ PrefixInRange (Machine.loop n Machine.phaseStep s) := by
  induction n with
  | zero => exact fun h hp => ⟨h, hp⟩
  | succ n ih => exact fun h hp => ih (h.phaseStep hp).1 (h.phaseStep hp).2

theorem InRange.finishCount {t : State} (h : InRange t) (n : Nat) : InRange (finishCount n t) := h.congr rfl rfl rfl

/-- A Character Encoder's run keeps both ranges. -/
theorem InRange.encoderRun {s t u : State} {n : Nat} (ht : InRange t) (ho : EncoderOnly s t) (hp : PrefixInRange s)
    (hu : u = Machine.finishCount n t) : InRange u ∧ PrefixInRange u := by
  have hpl := congrArg AssemblerRegs.prefixLen ho.assembler
  rw [hu]
  exact ⟨ht.finishCount n, hp.congr hpl⟩

theorem performText_inRange (o L : Nat) {s : State} (h : InRange s) (hp : PrefixInRange s) :
    InRange (performText o L s) ∧ PrefixInRange (performText o L s) := by
  obtain ⟨u, hu⟩ : ∃ u, u = clearOutptr (s.setReq { s.req with op := 4#4, offset := BitVec.ofNat 4 o, length := L }) := ⟨_, rfl⟩
  have h1 : InRange u := hu ▸ h.congr rfl rfl rfl
  have hp1 : PrefixInRange u := hu ▸ hp.congr rfl
  have ho : (BitVec.ofNat 4 o).toNat ≤ 15 := by have := (BitVec.ofNat 4 o).isLt; omega
  exact (h1.runText ho).encoderRun (EncoderOnly.runText _ u) hp1 (by rw [hu]; rfl)

theorem performNumeric_inRange (o L : Nat) {s : State} (h : InRange s) (hp : PrefixInRange s) :
    InRange (performNumeric o L s) ∧ PrefixInRange (performNumeric o L s) := by
  obtain ⟨u, hu⟩ : ∃ u, u = clearOutptr (s.setReq { s.req with op := 5#4, offset := BitVec.ofNat 4 o, length := L }) := ⟨_, rfl⟩
  have h1 : InRange u := hu ▸ h.congr rfl rfl rfl
  have hp1 : PrefixInRange u := hu ▸ hp.congr rfl
  have ho : (BitVec.ofNat 4 o).toNat ≤ 15 := by have := (BitVec.ofNat 4 o).isLt; omega
  exact (h1.runNumeric ho).encoderRun (EncoderOnly.runNumeric _ u) hp1 (by rw [hu]; rfl)

theorem performTransmit_inRange (n : Bool) (a f L : Nat) {s : State} (h : InRange s) (hp : PrefixInRange s) :
    InRange (performTransmit n a f L s) ∧ PrefixInRange (performTransmit n a f L s) := by
  obtain ⟨t, ht⟩ : ∃ t, t = runTransmission (loadTransmit n a f L s) := ⟨_, rfl⟩
  have h1 : InRange (startTransmission (loadTransmit n a f L s)) := h.congr rfl rfl rfl
  have h2 : InRange t ∧ PrefixInRange t := by
    rw [ht, runTransmission]
    exact h1.phaseSteps 7 (hp.congr rfl)
  have e : performTransmit n a f L s = Machine.finishCount t.assembler.outptr t := by rw [ht]; rfl
  rw [e]
  exact ⟨h2.1.finishCount _, h2.2.congr rfl⟩

/-- Every operation keeps the ranges. -/
theorem performOf_inRange (i : Instr) {s : State} (h : InRange s) (hp : PrefixInRange s) :
    InRange (performOf i s) ∧ PrefixInRange (performOf i s) := by
  cases i with
  | crc d => exact ⟨(InRange.runCrc (h.congr rfl rfl rfl : InRange (s.setReq _)) _).congr rfl rfl rfl, hp⟩
  | parity w => exact ⟨h.congr rfl rfl rfl, hp⟩
  | codeword d => exact ⟨(InRange.runPacker (h.congr rfl rfl rfl : InRange (s.setReq _)) _).congr rfl rfl rfl, hp⟩
  | digit c => exact ⟨h.congr rfl rfl rfl, hp⟩
  | text o L => exact performText_inRange o L h hp
  | numeric o L => exact performNumeric_inRange o L h hp
  | transmit n a f L => exact performTransmit_inRange n a f L h hp
  | addroff a => exact ⟨h.congr rfl rfl rfl, hp⟩
  | textlen a L => exact ⟨h.congr rfl rfl rfl, hp⟩
  | numlen a L => exact ⟨h.congr rfl rfl rfl, hp⟩
  | nop => exact ⟨h.congr rfl rfl rfl, hp⟩
  | sync | idle | preambleWord | addressWord _ _ _ _ | messageWord _ _ _ => exact ⟨h, hp⟩

end Sys2Proof.Machine
end

