-- ==== Sys2Proof/Laws/Frames.lean ====
section
/-! SUPPORT. What each operation leaves alone (20_memory.md R29, R35, 60_exceptions.md R121), as whole-state equations, and what the
operations that write OUT leave at each index. -/

namespace Sys2Proof.Machine

/-- A Character Encoder's run, as an equation of states. -/
theorem EncoderOnly.eq {s t : State} (h : EncoderOnly s t) :
    t = { s with checksum := t.checksum, packer := t.packer, encoder := t.encoder,
                 assembler := { s.assembler with outptr := t.assembler.outptr }, out := t.out } := by
  obtain ⟨h1, h2, h3, h4, h5, h6, h7, h8, h9, h10, h11⟩ := h
  cases t
  simp only at h1 h2 h3 h4 h5 h6 h7 h8 h9 h10 h11
  rw [h1, h2, h3, h4, h5, h6, h7, h8, h9, h10, h11]

/-- A transmission's run, as an equation of states. -/
theorem Transmitted.eq {s t : State} (h : Transmitted s t) :
    t = { s with checksum := t.checksum, packer := t.packer, encoder := t.encoder, assembler := t.assembler, out := t.out } := by
  have h1 := h.req; have h2 := h.res; have h3 := h.calculator; have h4 := h.msg; have h5 := h.outCapacity
  have h6 := h.params; have h7 := h.sink; have h8 := h.inbox; have h9 := h.freeIndex; have h10 := h.outEpoch
  clear h
  cases t
  simp only at h1 h2 h3 h4 h5 h6 h7 h8 h9 h10
  rw [h1, h2, h3, h4, h5, h6, h7, h8, h9, h10]

/-- No operation touches the caller's side. -/
theorem performOf_callers (i : Instr) (s : State) (hw : i.wellFormed = true) :
    (performOf i s).msg = s.msg ∧ (performOf i s).inbox = s.inbox ∧ (performOf i s).params = s.params ∧
      (performOf i s).outCapacity = s.outCapacity ∧ (performOf i s).sink = s.sink := by
  cases i with
  | text o L =>
    obtain ⟨u, t, rfl, hr, he⟩ := performText_run (o := o) (by simpa [Instr.wellFormed] using hw) L s
    simp only [performOf, he]
    exact ⟨hr.only.msg, hr.only.inbox, hr.only.params, hr.only.outCapacity, hr.only.sink⟩
  | numeric o L =>
    obtain ⟨u, t, rfl, hr, he⟩ := performNumeric_run (o := o) (by simpa [Instr.wellFormed] using hw) L s
    simp only [performOf, he]
    exact ⟨hr.only.msg, hr.only.inbox, hr.only.params, hr.only.outCapacity, hr.only.sink⟩
  | transmit n a f L =>
    obtain ⟨t, hr, he⟩ := performTransmit_run n a f L s
    simp only [performOf, he]
    exact ⟨hr.msg, hr.inbox, hr.params, hr.outCapacity, hr.sink⟩
  | crc d => exact ⟨rfl, rfl, rfl, rfl, rfl⟩
  | parity d => exact ⟨rfl, rfl, rfl, rfl, rfl⟩
  | codeword d => exact ⟨rfl, rfl, rfl, rfl, rfl⟩
  | digit d => exact ⟨rfl, rfl, rfl, rfl, rfl⟩
  | addroff d => exact ⟨rfl, rfl, rfl, rfl, rfl⟩
  | nop => exact ⟨rfl, rfl, rfl, rfl, rfl⟩
  | textlen a L => exact ⟨rfl, rfl, rfl, rfl, rfl⟩
  | numlen a L => exact ⟨rfl, rfl, rfl, rfl, rfl⟩
  | sync | idle | preambleWord | addressWord _ _ _ _ | messageWord _ _ _ => exact ⟨rfl, rfl, rfl, rfl, rfl⟩

/-- The stream depends on the message's own bytes alone. -/
theorem streamBit_congr (numeric : Bool) {f g : Nat → Byte} {L : Nat} (h : ∀ i < L, f i = g i) :
    streamBit numeric f L = streamBit numeric g L := by
  funext k
  unfold streamBit
  split_ifs with h1 h2
  · rw [h]; simp [layoutBits, h2] at h1; omega
  · rw [h]; simp [layoutBits, h2] at h1; omega
  · rfl

/-- What TEXT or NUMERIC, once admitted, leaves in OUT and reports (R85). -/
theorem performEncoder_out (numeric : Bool) {o : Nat} (ho : o < 2 ^ 4) (L : Nat) (s : State) :
    let t := performOf (if numeric then .numeric o L else .text o L) s
    t.res.count = layoutEncoderWords numeric o L ∧
    t.out = OutSpace.place s.out 0 (streamWords o (streamBit numeric (Memory.read s.msg) L) (layoutMessageWords numeric L)) := by
  cases numeric
  · obtain ⟨u, t, rfl, hr, he⟩ := performText_run ho L s
    simp only [performOf, he, Bool.false_eq_true, if_false]
    exact ⟨hr.wcount.trans (length_streamWords ho _ _), hr.out⟩
  · obtain ⟨u, t, rfl, hr, he⟩ := performNumeric_run ho L s
    simp only [performOf, he, if_true]
    exact ⟨hr.wcount.trans (length_streamWords ho _ _), hr.out⟩

/-- The words of a whole transmission of a request. -/
def transmissionOf (numeric : Bool) (a fn : Nat) (message : Nat → Byte) (L : Nat) : List Word :=
  transmissionList (streamBit numeric message L) (layoutPrefix a) (layoutMessageWords numeric L) (layoutAddressWord a fn)
    (layoutPadding (layoutCodewords numeric a L))

theorem length_transmissionOf (numeric : Bool) (a fn : Nat) (message : Nat → Byte) (L : Nat) :
    (transmissionOf numeric a fn message L).length = layoutWords numeric a L := by
  have hp := layoutPrefix_le a
  rw [transmissionOf, length_transmissionList _ hp]
  simp only [layoutWords, layoutBatches, layoutPadding, layoutCodewords]
  omega

/-- What TRANSMIT, once admitted, leaves in OUT and reports (R102). -/
theorem performTransmit_out (numeric : Bool) {a : Nat} (ha : a < 2 ^ 21) (fn L : Nat) (s : State) :
    let t := performOf (.transmit numeric a fn L) s
    t.res.count = layoutWords numeric a L ∧ t.out = OutSpace.place s.out 0 (transmissionOf numeric a fn (Memory.read s.msg) L) := by
  obtain ⟨t, hr, he⟩ := performTransmit_run numeric a fn L s
  have h1 : (loadTransmit numeric a fn L s).req =
    { s.req with op := 6#4, numeric := numeric, address := BitVec.ofNat 21 a, function := BitVec.ofNat 2 fn, length := L } := rfl
  have hout := hr.out
  have hptr := hr.outptr
  simp only [h1, toNat_address ha, layoutAddressWord_eq ha] at hout hptr
  simp only [performOf, he]
  exact ⟨hptr, hout⟩

end Sys2Proof.Machine
end

