-- ==== Sys2Proof/Laws/PerInstr.lean ====
section
/-! SUPPORT. The family `TableMatch`: what the encoder writes for each instruction has the `match` of its row of spec/opcode_table.json under
the row's `mask` (30_encoding.md R58, R62). -/

namespace Sys2Proof.Laws.TableMatch

/-- The row of an instruction: its mask and its match. -/
def row : Instr → Nat × Nat
  | .crc _ => (0xF, 0x0)
  | .parity _ => (0xF, 0x1)
  | .codeword _ => (0xF, 0x2)
  | .digit _ => (0xF, 0x3)
  | .text _ _ => (0xF, 0x4)
  | .numeric _ _ => (0xF, 0x5)
  | .transmit _ _ _ _ => (0xF, 0x6)
  | .addroff _ => (0xF, 0x7)
  | .textlen _ _ => (0xF, 0x8)
  | .numlen _ _ => (0xF, 0x9)
  | .nop => (0xF, 0xA)
  | .sync => (0xFFFFFFFF, 0x7CD215D8)
  | .idle => (0xFFFFFFFF, 0x7A89C197)
  | .preambleWord => (0xFFFFFFFF, 0xAAAAAAAA)
  | .addressWord _ _ _ _ => (0x80000000, 0x00000000)
  | .messageWord _ _ _ => (0x80000000, 0x80000000)

/-- The bits the table numbers: `REQ.op` of a request, the word of a word format. -/
def bits : Encoded → Nat
  | .request p => p.op.toNat
  | .word w => w.toNat

/-- The instruction's encoding has its row's fixed bits. -/
def Statement (i : Instr) : Prop := bits (encode i) &&& (row i).1 = (row i).2

theorem crc (data : Nat) : Statement (.crc data) :=
  (by decide : (0#4).toNat &&& 0xF = 0)
theorem parity (word : Nat) : Statement (.parity word) :=
  (by decide : (1#4).toNat &&& 0xF = 1)
theorem codeword (data : Nat) : Statement (.codeword data) :=
  (by decide : (2#4).toNat &&& 0xF = 2)
theorem digit (char : Nat) : Statement (.digit char) :=
  (by decide : (3#4).toNat &&& 0xF = 3)
theorem text (offset length : Nat) : Statement (.text offset length) :=
  (by decide : (4#4).toNat &&& 0xF = 4)
theorem numeric (offset length : Nat) : Statement (.numeric offset length) :=
  (by decide : (5#4).toNat &&& 0xF = 5)
theorem transmit (numeric : Bool) (address function length : Nat) : Statement (.transmit numeric address function length) :=
  (by decide : (6#4).toNat &&& 0xF = 6)
theorem addroff (address : Nat) : Statement (.addroff address) :=
  (by decide : (7#4).toNat &&& 0xF = 7)
theorem textlen (address length : Nat) : Statement (.textlen address length) :=
  (by decide : (8#4).toNat &&& 0xF = 8)
theorem numlen (address length : Nat) : Statement (.numlen address length) :=
  (by decide : (9#4).toNat &&& 0xF = 9)
theorem nop : Statement .nop :=
  (by decide : (10#4).toNat &&& 0xF = 10)
theorem sync : Statement .sync := (by decide : Config.SYNC.toNat &&& 0xFFFFFFFF = 0x7CD215D8)
theorem idle : Statement .idle := (by decide : Config.IDLE.toNat &&& 0xFFFFFFFF = 0x7A89C197)
theorem preambleWord : Statement .preambleWord := (by decide : Config.PREAMBLE_WORD.toNat &&& 0xFFFFFFFF = 0xAAAAAAAA)

/-- Bit 31 of a word, alone. -/
theorem and_top (w : Word) : w.toNat &&& 0x80000000 = if w.getLsbD 31 then 0x80000000 else 0 := by
  have h : w.toNat &&& 0x80000000 = (w &&& 0x80000000#32).toNat := rfl
  have e : w &&& 0x80000000#32 = if w.getLsbD 31 then 0x80000000#32 else 0#32 := by
    have hb : ∀ i < 32, (0x80000000#32).getLsbD i = decide (i = 31) := by decide
    refine BitVec.eq_of_getLsbD_eq fun i hi => ?_
    rw [BitVec.getLsbD_and, hb i hi]
    by_cases h31 : i = 31
    · subst h31; cases hw : w.getLsbD 31 <;> simp
    · cases hw : w.getLsbD 31 <;> simp [h31, hb i hi]
  rw [h, e]; split_ifs <;> rfl

theorem addressWord (a : BitVec 18) (f : BitVec 2) (c : BitVec 10) (p : Bool) : Statement (.addressWord a f c p) := by
  have h : (addressBits a f c p).getLsbD 31 = false := by
    rw [addressBits, BitVec.getLsbD_concat]
    simp only [BitVec.getLsbD_append]
    simp
  show (addressBits a f c p).toNat &&& 0x80000000 = 0
  rw [and_top, h]; rfl

theorem messageWord (d : Field20) (c : BitVec 10) (p : Bool) : Statement (.messageWord d c p) := by
  have h : (messageBits d c p).getLsbD 31 = true := by
    rw [messageBits, BitVec.getLsbD_concat]
    simp only [BitVec.getLsbD_append]
    simp
  show (messageBits d c p).toNat &&& 0x80000000 = 0x80000000
  rw [and_top, h]; rfl

end Sys2Proof.Laws.TableMatch
end

