-- ==== Sys2Proof/Laws/Words.lean ====
section
/-! SUPPORT. The words of the two wide formats (30_encoding.md R43, R44) bit by bit, and the fields read back. -/

namespace Sys2Proof

theorem getLsbD_addressBits (a : BitVec 18) (f : BitVec 2) (c : BitVec 10) (p : Bool) (i : Nat) :
    (addressBits a f c p).getLsbD i = if i = 0 then p else if i - 1 < 10 then c.getLsbD (i - 1)
      else if i - 11 < 2 then f.getLsbD (i - 11) else if i - 13 < 18 then a.getLsbD (i - 13) else false := by
  rw [addressBits, BitVec.getLsbD_concat]
  simp only [BitVec.getLsbD_append]
  by_cases h0 : i = 0
  · simp [h0]
  by_cases h1 : i - 1 < 10
  · simp [h0, h1]
  by_cases h2 : i - 11 < 2
  · simp [h0, h1, h2, show i - 1 - 10 = i - 11 by omega]
  by_cases h3 : i - 13 < 18 <;>
    simp [h0, h1, h2, h3, show i - 1 - 10 = i - 11 by omega, show i - 11 - 2 = i - 13 by omega]

theorem getLsbD_messageBits (d : Field20) (c : BitVec 10) (p : Bool) (i : Nat) :
    (messageBits d c p).getLsbD i = if i = 0 then p else if i - 1 < 10 then c.getLsbD (i - 1)
      else if i - 11 < 20 then d.getLsbD (i - 11) else decide (i = 31) := by
  rw [messageBits, BitVec.getLsbD_concat]
  simp only [BitVec.getLsbD_append]
  by_cases h0 : i = 0
  · simp [h0]
  by_cases h1 : i - 1 < 10
  · simp [h0, h1]
  by_cases h2 : i - 11 < 20
  · simp [h0, h1, h2, show i - 1 - 10 = i - 11 by omega]
  simp [h0, h1, h2, show i - 1 - 10 = i - 11 by omega, show i - 11 - 20 = i - 31 by omega]
  omega

/-- The fields of an address word, read at their bits. -/
theorem addressBits_fields (a : BitVec 18) (f : BitVec 2) (c : BitVec 10) (p : Bool) :
    (addressBits a f c p).extractLsb' 13 18 = a ∧ (addressBits a f c p).extractLsb' 11 2 = f ∧
      (addressBits a f c p).extractLsb' 1 10 = c ∧ (addressBits a f c p).getLsbD 0 = p ∧
      (addressBits a f c p).getLsbD 31 = false := by
  refine ⟨?_, ?_, ?_, by rw [getLsbD_addressBits]; simp, by rw [getLsbD_addressBits]; simp⟩ <;>
    refine BitVec.eq_of_getLsbD_eq fun j hj => ?_ <;> rw [BitVec.getLsbD_extractLsb', getLsbD_addressBits]
  · rw [if_neg (by omega), if_neg (by omega), if_neg (by omega), if_pos (by omega), show 13 + j - 13 = j by omega]
    simp [hj]
  · rw [if_neg (by omega), if_neg (by omega), if_pos (by omega), show 11 + j - 11 = j by omega]
    simp [hj]
  · rw [if_neg (by omega), if_pos (by omega), show 1 + j - 1 = j by omega]
    simp [hj]

/-- The fields of a message word, read at their bits. -/
theorem messageBits_fields (d : Field20) (c : BitVec 10) (p : Bool) :
    (messageBits d c p).extractLsb' 11 20 = d ∧ (messageBits d c p).extractLsb' 1 10 = c ∧
      (messageBits d c p).getLsbD 0 = p ∧ (messageBits d c p).getLsbD 31 = true := by
  refine ⟨?_, ?_, by rw [getLsbD_messageBits]; simp, by rw [getLsbD_messageBits]; simp⟩ <;>
    refine BitVec.eq_of_getLsbD_eq fun j hj => ?_ <;> rw [BitVec.getLsbD_extractLsb', getLsbD_messageBits]
  · rw [if_neg (by omega), if_neg (by omega), if_pos (by omega), show 11 + j - 11 = j by omega]
    simp [hj]
  · rw [if_neg (by omega), if_pos (by omega), show 1 + j - 1 = j by omega]
    simp [hj]

end Sys2Proof
end

