-- ==== Sys2Proof/Laws/Steps.lean ====
section
/-! SUPPORT. What a step can do, said once (70_reset_and_hazards.md R129, R132, 20_memory.md R35, R38, 30_encoding.md R57, R58), and runs of
steps. -/

namespace Sys2Proof.Machine

/-- What the decoder reads from ports is an operation of the block. -/
theorem decodePorts_isRequest {p : Ports} {i : Instr} (h : decodePorts p = .instr i) : i.isRequest = true := by
  unfold decodePorts at h
  split at h <;> cases h <;> rfl

/-- What the decoder reads from a word is a word format. -/
theorem decodeWord_isWord (w : Word) : (decodeWord w).isRequest = false := by
  unfold decodeWord
  split_ifs <;> rfl

/-- A word format sends the word its encoding is (R38; log 10). -/
theorem exec_word {i : Instr} {w : Word} (h : encode i = .word w) (s : State) : exec i s = sinkSend w s := by
  cases i <;> simp only [encode] at h <;> cases h <;> rfl

/-- A word format answers a next state that differs in the sink alone. -/
theorem exec_wordFormat {i : Instr} (h : i.isRequest = false) (s : State) : ∃ w, exec i s = sinkSend w s := by
  cases i <;> first | exact ⟨_, rfl⟩ | simp [Instr.isRequest] at h

/-- The cases of a step, by the event it takes. -/
inductive Stepped (s : State) : Prop
  | waits (h : s.inbox = []) (hs : step s = .next s)
  | runs (ports : Ports) (message : List Byte) (capacity : Option Nat) (rest : List Event) (i : Instr)
      (h : s.inbox = .request ports message capacity :: rest) (hd : decodePorts ports = .instr i) (hi : i.isRequest = true)
      (hs : step s = exec i (presentRequest message capacity (s.setInbox rest)))
  | reserved (ports : Ports) (message : List Byte) (capacity : Option Nat) (rest : List Event) (op : BitVec 4)
      (h : s.inbox = .request ports message capacity :: rest) (hd : decodePorts ports = .reservedOp op)
      (hs : step s = .next (reject .reservedOp (presentRequest message capacity (s.setInbox rest))))
  | resets (rest : List Event) (h : s.inbox = .reset :: rest) (hs : step s = .next (resetBlock (s.setInbox rest)))
  | abandons (ports : Ports) (message : List Byte) (capacity : Option Nat) (rest : List Event)
      (h : s.inbox = .resetDuring ports message capacity :: rest)
      (hs : step s = .next (resetMidOperation (presentRequest message capacity (s.setInbox rest))))
  | leaves (first : Nat) (words : List Word) (rest : List Event) (h : s.inbox = .leaveWords first words :: rest)
      (hs : step s = .next (leaveInOut first words (s.setInbox rest)))
  | starts (n : Nat) (rest : List Event) (h : s.inbox = .sinkStart n :: rest)
      (hs : step s = .next (startSink n (s.setInbox rest)))
  | sends (rest : List Event) (h : s.inbox = .sinkWord :: rest) (hk : s.sink.index < s.sink.count)
      (hs : step s = exec (decodeWord (s.outWord s.sink.index)) (s.setInbox rest))
  | rests (rest : List Event) (h : s.inbox = .sinkWord :: rest) (hk : s.sink.count ≤ s.sink.index)
      (hs : step s = .next (s.setInbox rest))

/-- Every step is one of them. -/
theorem step_cases (s : State) : Stepped s := by
  cases h : s.inbox with
  | nil => exact .waits h (by simp [step, fetch, h])
  | cons e rest =>
    cases e with
    | request ports message capacity =>
      cases hd : decodePorts ports with
      | instr i => exact .runs ports message capacity rest i h hd (decodePorts_isRequest hd) (by simp [step, fetch, h, fetchRequest, hd])
      | reservedOp op => exact .reserved ports message capacity rest op h hd (by simp [step, fetch, h, fetchRequest, hd])
    | reset => exact .resets rest h (by simp [step, fetch, h])
    | resetDuring ports message capacity => exact .abandons ports message capacity rest h (by simp [step, fetch, h])
    | leaveWords first words => exact .leaves first words rest h (by simp [step, fetch, h])
    | sinkStart n => exact .starts n rest h (by simp [step, fetch, h])
    | sinkWord =>
      by_cases hk : s.sink.index < s.sink.count
      · exact .sends rest h hk (by simp [step, fetch, h, fetchWord, hk, State.outWord])
      · exact .rests rest h (Nat.not_lt.1 hk) (by simp [step, fetch, h, fetchWord, hk])

/-- A run's first step, on any machine. -/
theorem run_succ (M : Host.Core) {s t : M.State} (n : Nat) (h : M.step s = .next t) : M.run (n + 1) s = M.run n t := by
  simp only [Host.Core.run, h]

/-- A run of this machine, its first step taken. -/
theorem run_core_succ {s t : State} (n : Nat) (h : step s = .next t) : Host.Core.run core (n + 1) s = Host.Core.run core n t :=
  run_succ core n h

end Sys2Proof.Machine
end

