-- ==== Sys2Proof/Tests/Slice0.lean ====
section
/-! SUPPORT. Tests of the model against the spec's own vectors (95_test_vectors.md), words written out from the encodings of 30_encoding.md,
ill-formed terms the well-formedness check refuses, and a witness for the hypotheses of each statement. -/

namespace Sys2Proof.Tests

open Sys2Proof.Machine

/-! Helpers. -/

/-- The state after reset with one request pending. -/
def pending (p : Ports) (message : List Byte) (capacity : Option Nat) : State :=
  State.reset.setInbox [.request p message capacity]

/-- The next state of one step, if there is one. -/
def ran (s : State) : Option State :=
  match step s with
  | .next t => some t
  | .fault _ => none
  | .refused _ => none

/-- The next state of one instruction, if there is one. -/
def did (i : Instr) (s : State) : Option State :=
  match exec i s with
  | .next t => some t
  | .fault _ => none
  | .refused _ => none

/-- Status and code. -/
def outcome (t : State) : BitVec 2 × BitVec 4 := (t.res.status, t.res.code)

/-- Status, code and the value of an operation that returns one. -/
def value (t : State) : BitVec 2 × BitVec 4 × Word := (t.res.status, t.res.code, t.res.value)

/-- Status, code and the count of an operation that returns one. -/
def count (t : State) : BitVec 2 × BitVec 4 × Nat := (t.res.status, t.res.code, t.res.count)

/-- The count and the words of OUT, in order. -/
def words (t : State) : Nat × List Word := (t.res.count, t.out.map Prod.snd)

/-- The line levels the sink has sent, as a number, first level highest. -/
def levels (t : State) : Nat := t.sink.line.foldl (fun n b => 2 * n + b.toNat) 0

/-- The state after reset with a bound on lengths and counts. -/
def bounded (n : Nat) : State := { State.reset with params := ⟨some n, .normal⟩ }

/-! The well-formedness check refuses one ill-formed term for each check. -/

theorem test_illformed_crc : (Instr.crc (2 ^ 21)).wellFormed = false := by decide
theorem test_illformed_parity : (Instr.parity (2 ^ 32)).wellFormed = false := by decide
theorem test_illformed_codeword : (Instr.codeword 0x200000).wellFormed = false := by decide
theorem test_illformed_digit : (Instr.digit 256).wellFormed = false := by decide
theorem test_illformed_text : (Instr.text 16 1).wellFormed = false := by decide
theorem test_illformed_numeric : (Instr.numeric 16 1).wellFormed = false := by decide
theorem test_illformed_transmit_address : (Instr.transmit false 2097152 0 0).wellFormed = false := by decide
theorem test_illformed_transmit_function : (Instr.transmit false 0 4 0).wellFormed = false := by decide
theorem test_illformed_addroff : (Instr.addroff (2 ^ 21)).wellFormed = false := by decide
theorem test_illformed_textlen : (Instr.textlen (2 ^ 21) 0).wellFormed = false := by decide
theorem test_illformed_numlen : (Instr.numlen (2 ^ 21) 0).wellFormed = false := by decide
/-- The fields of SYNC (R52: data 0x0F9A42, crc 0x2EC, parity 0). -/
theorem test_illformed_address_sync :
    (Instr.addressWord 0b111110011010010000 0b10 0b1011101100 false).wellFormed = false := by decide
/-- The fields of IDLE (R52: data 0x0F5138, crc 0x0CB, parity 1). -/
theorem test_illformed_address_idle :
    (Instr.addressWord 0b111101010001001110 0b00 0b0011001011 true).wellFormed = false := by decide
/-- The fields of 0xAAAAAAAA. -/
theorem test_illformed_message_preamble :
    (Instr.messageWord 0b01010101010101010101 0b0101010101 false).wellFormed = false := by decide

/-! Decoding, every constructor (R58, R62; programs P1 and P9 of 95_test_vectors.md give the operands). -/

theorem test_decode_crc : decode (.request ⟨0b0000, false, 0, 0, 0, 0, 0x070D77, 0, 0⟩) = .instr (.crc 0x070D77) := by decide
theorem test_decode_parity :
    decode (.request ⟨0b0001, false, 0, 0, 0, 0, 0, 0x920003A8, 0⟩) = .instr (.parity 0x920003A8) := by decide
theorem test_decode_codeword :
    decode (.request ⟨0b0010, false, 0, 0, 0, 0, 0x124000, 0, 0⟩) = .instr (.codeword 0x124000) := by decide
theorem test_decode_digit : decode (.request ⟨0b0011, false, 0, 0, 0, 0, 0, 0, 0x34⟩) = .instr (.digit 0x34) := by decide
theorem test_decode_text : decode (.request ⟨0b0100, false, 0, 0, 5, 1, 0, 0, 0⟩) = .instr (.text 1 5) := by decide
theorem test_decode_numeric : decode (.request ⟨0b0101, false, 0, 0, 2, 7, 0, 0, 0⟩) = .instr (.numeric 7 2) := by decide
theorem test_decode_transmit :
    decode (.request ⟨0b0110, true, 0x0E1AEB, 3, 2, 0, 0, 0, 0⟩) = .instr (.transmit true 924395 3 2) := by decide
theorem test_decode_addroff :
    decode (.request ⟨0b0111, false, 924395, 0, 0, 0, 0, 0, 0⟩) = .instr (.addroff 924395) := by decide
theorem test_decode_textlen :
    decode (.request ⟨0b1000, false, 0x12D687, 0, 11, 0, 0, 0, 0⟩) = .instr (.textlen 1234567 11) := by decide
theorem test_decode_numlen :
    decode (.request ⟨0b1001, false, 0x0E1AEB, 0, 2, 0, 0, 0, 0⟩) = .instr (.numlen 924395 2) := by decide
theorem test_decode_nop : decode (.request ⟨0b1010, true, 1, 1, 1, 1, 1, 1, 1⟩) = .instr .nop := by decide
theorem test_decode_reserved : decode (.request (Ports.select 0b1011)) = .reservedOp 0b1011 := by decide
theorem test_decode_sync : decodeTableWord 32 0b01111100110100100001010111011000 = some .sync := by decide
theorem test_decode_idle : decodeTableWord 32 0b01111010100010011100000110010111 = some .idle := by decide
theorem test_decode_preamble : decodeTableWord 32 0b10101010101010101010101010101010 = some .preambleWord := by decide
/-- 0x386BB95B: bits 30..13 = 0x1C35D, bits 12..11 = 3, bits 10..1 = 0x0AD, bit 0 = 1 (95_test_vectors.md 2.3). -/
theorem test_decode_address : decodeTableWord 32 0x386BB95B = some (.addressWord 0x1C35D 3 0x0AD true) := by decide
/-- 0x920003A8: bits 30..11 = 0x24000, bits 10..1 = 0x1D4, bit 0 = 0 (95_test_vectors.md 2.3). -/
theorem test_decode_message : decodeTableWord 32 0x920003A8 = some (.messageWord 0x24000 0x1D4 false) := by decide

/-! The Checksum Unit and the packer (95_test_vectors.md 2.1 to 2.3). -/

theorem test_crc_message : (did (.crc 0x124000) State.reset).map value = some (0, 0, 0x1D4) := by decide +kernel
theorem test_crc_ones : (did (.crc 0x1FFFFF) State.reset).map value = some (0, 0, 0x3FF) := by decide +kernel
theorem test_parity_top : (did (.parity 0x80000000) State.reset).map value = some (0, 0, 1) := by decide
theorem test_parity_all : (did (.parity 0xFFFFFFFF) State.reset).map value = some (0, 0, 0) := by decide
theorem test_codeword_address : (did (.codeword 0x070D77) State.reset).map value = some (0, 0, 0x386BB95B) := by decide +kernel
theorem test_codeword_empty_message : (did (.codeword 0x100000) State.reset).map value = some (0, 0, 0x80000769) := by decide +kernel

/-! The Character Encoders (2.4 to 2.6). -/

theorem test_digit_seven : (did (.digit 0x37) State.reset).map value = some (0, 0, 14) := by decide
theorem test_digit_high_bit : (did (.digit 0xB0) State.reset).map value = some (0, 0, 5) := by decide
theorem test_text_straddle : (ran (pending ⟨4, false, 0, 0, 3, 15, 0, 0, 0⟩ [0x41, 0x42, 0x43] none)).map words =
    some (3, [0xC14387B8, 0x7CD215D8, 0xC00004DC]) := by decide +kernel
theorem test_text_bit_seven : (ran (pending ⟨4, false, 0, 0, 1, 0, 0, 0, 0⟩ [0xC1] none)).map words =
    some (1, [0xC100057F]) := by decide +kernel
theorem test_numeric_scenario : (ran (pending ⟨5, false, 0, 0, 2, 7, 0, 0, 0⟩ [0x34, 0x32] none)).map words =
    some (1, [0x920003A8]) := by decide +kernel
theorem test_numeric_sync_between : (ran (pending ⟨5, false, 0, 0, 6, 15, 0, 0, 0⟩ [0x31, 0x32, 0x33, 0x34, 0x35, 0x36] none)).map words =
    some (3, [0xC261572C, 0x7CD215D8, 0xB0000136]) := by decide +kernel

/-! The Frame Assembler: programs P1 and P2 of section 3. -/

theorem test_transmit_p1 : (ran (pending ⟨6, true, 924395, 3, 2, 0, 0, 0, 0⟩ [0x34, 0x32] (some 35))).map words =
    some (35, List.replicate 18 0xAAAAAAAA ++ 0x7CD215D8 :: List.replicate 6 0x7A89C197 ++ [0x386BB95B, 0x920003A8] ++
      List.replicate 8 0x7A89C197) := by decide +kernel
theorem test_transmit_p2 : (ran (pending ⟨6, false, 1234567, 3, 11, 0, 0, 0, 0⟩
      [0x48, 0x45, 0x4C, 0x4C, 0x4F, 0x20, 0x57, 0x4F, 0x52, 0x4C, 0x44] (some 52))).map words =
    some (52, List.replicate 18 0xAAAAAAAA ++ 0x7CD215D8 :: List.replicate 14 0x7A89C197 ++
      [0x4B5A1A25, 0x89A2634D, 0x7CD215D8, 0xCCF905DE, 0xDD7CA379, 0xD3244660] ++ List.replicate 13 0x7A89C197) := by decide +kernel

/-! The Length Calculator and NOP (2.8, 2.9). -/

theorem test_addroff : (did (.addroff 924395) State.reset).map count = some (0, 0, 6) := by decide
theorem test_addroff_top : (did (.addroff 2097151) State.reset).map count = some (0, 0, 14) := by decide
theorem test_textlen : (did (.textlen 7 0) State.reset).map count = some (0, 0, 35) := by decide
theorem test_textlen_long : (did (.textlen 6 100) State.reset).map count = some (0, 0, 86) := by decide
theorem test_numlen : (did (.numlen 0 71) State.reset).map count = some (0, 0, 52) := by decide
theorem test_numlen_edge : (did (.numlen 6 10) State.reset).map count = some (0, 0, 35) := by decide
theorem test_nop : (did .nop State.reset).map outcome = some (0, 0) := by decide

/-! The order of the checks (2.9). -/

theorem test_reserved_first : (ran (pending { Ports.select 12 with address := 2 ^ 21 } [] (some 0))).map outcome = some (1, 1) := by
  decide
theorem test_too_wide : (did (.transmit false 0 4 0) State.reset).map outcome = some (1, 2) := by decide
theorem test_length_before_capacity :
    (did (.transmit false 0 0 2000) ((bounded 1000).setOutCapacity (some 0))).map outcome = some (1, 3) := by decide
theorem test_overrun : (did (.text 15 1) (State.reset.setOutCapacity (some 1))).map (fun t => (outcome t, t.out)) =
    some ((2, 1), []) := by decide
theorem test_capacity_exact : (ran (pending ⟨4, false, 0, 0, 1, 15, 0, 0, 0⟩ [0x41] (some 2))).map words =
    some (2, [0xC100057F, 0x7CD215D8]) := by decide +kernel

/-! The sink (2.10). -/

theorem test_sink_sync : (ran (State.reset.withFetchWord 32 0x7CD215D8)).map levels = some 0b10000011001011011110101000100111 := by
  decide
theorem test_sink_idle : (did .idle State.reset).map levels = some 0b10000101011101100011111001101000 := by decide
theorem test_sink_preamble : (did .preambleWord State.reset).map levels = some 0b01010101010101010101010101010101 := by decide
theorem test_sink_message : (did (.messageWord 0x24000 0x1D4 false) State.reset).map levels =
    some 0b01101101111111111111110001010111 := by decide
theorem test_sink_inverted : (did (.addressWord 0x1C35D 3 0x0AD true) { State.reset with params := ⟨none, .inverted⟩ }).map levels =
    some 0x386BB95B := by decide
/-- R35: the caller's word is what the sink finds until an operation writes there. -/
theorem test_sink_caller_word : (ran { State.reset with sink := ⟨0, 1, []⟩, out := [], inbox := [.leaveWords 0 [0x920003A8], .sinkWord] }).bind
    (fun t => (ran t).map levels) = some 0b01101101111111111111110001010111 := by decide +kernel
/-- An unwritten word is sent too: 32 levels, whatever they are. -/
theorem test_sink_unwritten : fetch { State.reset with sink := ⟨0, 1, []⟩, inbox := [.sinkWord] } =
    .run (decodeWord (Config.freeWord 0 0)) { State.reset with sink := ⟨0, 1, []⟩ } := rfl

/-! Running from reset. -/

theorem test_reset_waits : ran State.reset = some State.reset := by decide
theorem test_placed_request_runs : (ran (State.reset.withFetchWord 8 0b1001)).map count = some (0, 0, 35) := by decide
theorem test_reset_event : (ran { State.reset with inbox := [.reset], calculator := ⟨35⟩ }).map (·.calculator.nw) = some 0 := by decide
theorem test_reset_during : (ran { State.reset with inbox := [.resetDuring (Ports.select 4) [0x41] none], out := [(0, 1)] }).map
    (fun t => (t.out, t.msg)) = some ([], [(0, 0x41)]) := by decide

/-! Witnesses: for each statement with hypotheses, inputs that meet them, at the edges of their ranges. -/

theorem test_witness_ResetValuesAndWaiting : State.reset.inbox = [] := rfl

theorem test_witness_StepRunsTheDecodedRequest : ∃ (s : State) (ports : Ports) (message : List Byte) (capacity : Option Nat) (rest : List Event) (i : Instr),
    s.inbox = .request ports message capacity :: rest ∧ decode (.request ports) = .instr i :=
  ⟨pending (Ports.select 10) [0x41] none, Ports.select 10, [0x41], none, [], .nop, rfl, rfl⟩

theorem test_witness_StepRunsTheSinksNextWord_some :
    let s := (State.reset.withFetchWord 32 0)
    s.inbox = .sinkWord :: [] ∧ s.sink.index < s.sink.count ∧ OutSpace.read s.out s.sink.index = some 0 := by decide
theorem test_witness_StepRunsTheSinksNextWord_end :
    let s := State.reset.setInbox [.sinkWord]
    s.inbox = .sinkWord :: [] ∧ s.sink.count ≤ s.sink.index := by decide
theorem test_witness_StepRunsTheSinksNextWord_none :
    let s := { State.reset with inbox := [.sinkWord], sink := ⟨0, 1, []⟩ }
    s.inbox = .sinkWord :: [] ∧ s.sink.index < s.sink.count ∧ OutSpace.read s.out s.sink.index = none := by decide

theorem test_witness_CallersWordsStandInOut : (State.reset.setInbox [.leaveWords 3 [1, 2]]).inbox = .leaveWords 3 [1, 2] :: [] ∧
    (0 < [1#32, 2#32].length ∧ 1 < [1#32, 2#32].length) ∧ (2 < 3 ∧ 3 + [1#32, 2#32].length ≤ 5) := ⟨rfl, by decide, by decide⟩
/-- A step of the second clause: the sink takes its word. -/
theorem test_witness_CallersWordsStandInOut_step : ∃ t, step (State.reset.withFetchWord 32 0) = .next t ∧
    (∀ p m c rest, (State.reset.withFetchWord 32 0).inbox ≠ .request p m c :: rest ∧
      (State.reset.withFetchWord 32 0).inbox ≠ .resetDuring p m c :: rest) ∧
    ∀ first ws rest, (State.reset.withFetchWord 32 0).inbox ≠ .leaveWords first ws :: rest :=
  ⟨_, rfl, fun _ _ _ _ => ⟨nofun, nofun⟩, fun _ _ _ => nofun⟩

theorem test_witness_SinkStartHandsOverTheBuffer : (State.reset.setInbox [.sinkStart 35]).inbox = .sinkStart 35 :: [] := rfl

/-- Every operand at its port's largest value. -/
theorem test_witness_DecodeOfEncodeIsTheInstruction : ∀ i ∈ [Instr.crc (2 ^ 21 - 1), .parity (2 ^ 32 - 1), .codeword (2 ^ 21 - 1),
    .digit 255, .text 15 0, .numeric 15 0, .transmit true (2 ^ 21 - 1) 3 0, .addroff (2 ^ 21 - 1), .textlen (2 ^ 21 - 1) 0,
    .numlen (2 ^ 21 - 1) 0, .nop, .sync, .idle, .preambleWord, .addressWord 0x3FFFF 3 0x3FF true, .messageWord 0xFFFFF 0x3FF true],
    i.wellFormed = true := by decide

/-- The clauses of the five rows: each fixed word, and the lowest and highest word of the two wide rows. -/
theorem test_witness_EveryWordDecodesToItsRow_address : (0x00000000#32 ≠ Config.SYNC ∧ 0x00000000#32 ≠ Config.IDLE ∧
    (0x00000000#32).getLsbD 31 = false) ∧ 0x7FFFFFFF#32 ≠ Config.SYNC ∧ 0x7FFFFFFF#32 ≠ Config.IDLE ∧
    (0x7FFFFFFF#32).getLsbD 31 = false := by decide
theorem test_witness_EveryWordDecodesToItsRow_message : (0x80000000#32 ≠ Config.PREAMBLE_WORD ∧ (0x80000000#32).getLsbD 31 = true) ∧
    0xFFFFFFFF#32 ≠ Config.PREAMBLE_WORD ∧ (0xFFFFFFFF#32).getLsbD 31 = true := by decide

theorem test_witness_CrcCompletes : (0 < 2 ^ 21 ∧ 0x1FFFFF < 2 ^ 21) := by decide

theorem test_witness_CrcIsTheUniqueRemainder : generatorPolynomial ∣ polynomialOf (0#21 ++ 0#10) := by
  have h : polynomialOf (0#21 ++ 0#10) = 0 := Finset.sum_eq_zero fun i _ => by
    rw [BitVec.getLsbD_append]; simp
  rw [h]; exact dvd_zero _

theorem test_witness_ParityCompletes : (0 < 2 ^ 32 ∧ 0xFFFFFFFF < 2 ^ 32) := by decide

theorem test_witness_CodewordCompletes : (0 < 2 ^ 21 ∧ 0x1FFFFF < 2 ^ 21) := by decide

/-- The edges of the two ranges of addresses, inside and outside. -/
theorem test_witness_SyncAndIdle_sync_low : codewordOf (addressData 2045056 2) = Config.SYNC := by decide +kernel
theorem test_witness_SyncAndIdle_sync_high : codewordOf (addressData 2045063 2) = Config.SYNC := by decide +kernel
theorem test_witness_SyncAndIdle_sync_out : codewordOf (addressData 2045064 2) ≠ Config.SYNC := by decide +kernel
theorem test_witness_SyncAndIdle_idle_low : codewordOf (addressData 2007664 0) = Config.IDLE := by decide +kernel
theorem test_witness_SyncAndIdle_idle_high : codewordOf (addressData 2007671 0) = Config.IDLE := by decide +kernel
theorem test_witness_SyncAndIdle_idle_out : codewordOf (addressData 2007663 0) ≠ Config.IDLE := by decide +kernel

theorem test_witness_DigitCompletes : ∀ c ∈ [0, 0x2F, 0x30, 0x39, 0x3A, 255], c < 2 ^ 8 := by decide

theorem test_witness_MessageWordEmission : ∀ p ∈ [0, 14, 15], (State.reset.setEncoder { State.reset.encoder with wpos := p }).encoder.wpos ≤ 15 := by
  decide

/-- Offset 15, one word and its SYNC, with the bound and the capacity exactly met. -/
theorem test_witness_EncodersWriteTheirClosedForm : ∀ numeric : Bool, 15 < 16 ∧ within 1 (some 2) ∧
    within (layoutEncoderWords numeric 15 1) (some 2) ∧ 0 < layoutMessageWords numeric 1 ∧ (15 + 0) % 16 = 15 := by
  simp only [within]; decide

/-- The listed values of m at the ends of their ranges (R85). -/
theorem test_witness_EncodersWriteTheirClosedForm_counts : ([0, 1, 2, 3, 5, 18, 20].map (layoutMessageWords false)) = [0, 1, 1, 2, 2, 7, 7] := by
  decide

/-- The last character of the second word, and the bit that straddles into it. -/
theorem test_witness_CharactersLieInTheDataFields : admissible (.numeric 15 10) State.reset ∧ (4 < 5 ∧ 5 * 1 + 4 < 10) ∧
    admissible (.text 15 3) State.reset ∧ (2 < 3 ∧ 6 < 7) :=
  ⟨⟨by decide, fun _ _ => trivial, trivial⟩, by decide, ⟨by decide, fun _ _ => trivial, trivial⟩, by decide⟩

theorem test_witness_EncodersFrame : ∃ t u, exec (.text 15 1) State.reset = .next t ∧ exec (.numeric 16 1) State.reset = .next u ∧
    t.res.status = 0#2 ∧ u.res.status ≠ 0#2 := ⟨_, _, rfl, rfl, rfl, by decide⟩

/-- The highest address, function bits 3, the bounds exactly met: 35 words. -/
theorem test_witness_TransmitWritesItsClosedForm : 2 ^ 21 - 1 < 2 ^ 21 ∧ 3 < 2 ^ 2 ∧ within 0 (some 35) ∧
    within (layoutWords true (2 ^ 21 - 1) 0) (some 35) := by
  simp only [within]; decide

theorem test_witness_TransmissionInvariants : admissible (.transmit true 2097151 3 0) State.reset ∧
    (∃ t, exec (.transmit true 2097151 3 0) State.reset = .next t) ∧ ¬ ((2045056 ≤ 2097151 ∧ 2097151 ≤ 2045063) ∧ 3 = 2) :=
  ⟨⟨by decide, fun _ _ => trivial, trivial⟩, ⟨_, rfl⟩, by decide⟩

theorem test_witness_LengthAgreement : admissible (.transmit false 7 0 1) State.reset ∧
    (∃ t, exec (.transmit false 7 0 1) State.reset = .next t) ∧ (∃ v, exec (.textlen 7 1) State.reset = .next v) :=
  ⟨⟨by decide, fun _ _ => trivial, trivial⟩, ⟨_, rfl⟩, ⟨_, rfl⟩⟩

theorem test_witness_PhasesInOrder : 0 ≤ 7 ∧ 7 ≤ 7 := by decide

/-- A batch just begun, and one that is complete. -/
theorem test_witness_PaddingCompletesTheBatch : (⟨.s7Pad, 19, 18, 0, 0⟩ : AssemblerRegs).start ≤ 19 ∧ 18 ≤ 35 ∧ (35 - 18) % 17 = 0 := by
  decide

theorem test_witness_TransmitFrame : ∃ t u, exec (.transmit true 0 0 0) State.reset = .next t ∧
    exec (.transmit true 0 4 0) State.reset = .next u ∧ t.res.status = 0#2 ∧ u.res.status ≠ 0#2 := ⟨_, _, rfl, rfl, rfl, by decide⟩

theorem test_witness_AddroffCompletes : (0 < 2 ^ 21 ∧ 2097151 < 2 ^ 21) := by decide

theorem test_witness_SizingFormula : 2097151 < 2 ^ 21 ∧ within 0 (some 35) ∧ within (layoutWords false 2097151 0) (some 35) := by
  simp only [within]; decide

theorem test_witness_WorstFrameBoundSuffices : ∃ s : State, s.params.lenMax = none ∧
    s.outCapacity = some (18 + 17 * ((14 + 2 + (7 * 0 + 19) / 20 + 15) / 16)) ∧ 2097151 < 2 ^ 21 ∧ 3 < 2 ^ 2 :=
  ⟨State.reset.setOutCapacity (some 35), rfl, rfl, by decide, by decide⟩

theorem test_witness_RegisterOperationsFrame : Instr.isRequest .nop = true ∧ ∃ t, exec .nop State.reset = .next t := ⟨rfl, _, rfl⟩

theorem test_witness_EveryInstructionCompletes : Instr.isRequest (.text 15 1) = true ∧ admissible (.text 15 1) State.reset :=
  ⟨rfl, by decide, fun _ _ => trivial, trivial⟩

/-- Each clause: a reserved number at both ends, an operand too wide, a length above the bound, too little capacity, none. -/
theorem test_witness_ChecksInOrder_reserved : ∀ op ∈ [11#4, 15#4], 11 ≤ (Ports.select op).op.toNat := by decide
theorem test_witness_ChecksInOrder_wide : (Instr.text 16 1).wellFormed = false ∧
    decode (.request ⟨4, false, 0, 0, 1, 16, 0, 0, 0⟩) = .instr (.text 16 1) := by decide
theorem test_witness_ChecksInOrder_long : (Instr.textlen 0 1001).wellFormed = true ∧
    ∃ n ∈ (Instr.textlen 0 1001).boundedCounts, ¬ within n (bounded 1000).params.lenMax :=
  ⟨by decide, 1001, by simp [Instr.boundedCounts], by simp [within, bounded]⟩
theorem test_witness_ChecksInOrder_overrun : (Instr.text 15 1).wellFormed = true ∧
    (∀ n ∈ (Instr.text 15 1).boundedCounts, within n State.reset.params.lenMax) ∧ ¬ within (Instr.text 15 1).wordsWritten (some 1) :=
  ⟨by decide, fun _ _ => trivial, by simp only [within]; decide⟩
theorem test_witness_ChecksInOrder_ok : (Instr.text 15 1).wellFormed = true ∧
    (∀ n ∈ (Instr.text 15 1).boundedCounts, within n State.reset.params.lenMax) ∧ within (Instr.text 15 1).wordsWritten (some 2) :=
  ⟨by decide, fun _ _ => trivial, by simp only [within]; decide⟩
theorem test_witness_ChecksInOrder_decodes : (Ports.select 10).op.toNat ≤ 10 := by decide

theorem test_witness_CapacityIsAPrecondition : (Instr.transmit true 0 0 0).wellFormed = true ∧
    (∀ n ∈ (Instr.transmit true 0 0 0).boundedCounts, within n State.reset.params.lenMax) ∧
    34 < (Instr.transmit true 0 0 0).wordsWritten ∧ (Instr.transmit true 0 0 0).wordsWritten ≤ 35 :=
  ⟨by decide, fun _ _ => trivial, by decide, by decide⟩

theorem test_witness_RejectionHasNoOtherEffect : ∃ t, exec (.codeword 0x200000) State.reset = .next t ∧ t.res.status ≠ 0#2 :=
  ⟨_, rfl, by decide⟩
theorem test_witness_RejectionHasNoOtherEffect_reserved : (pending (Ports.select 11) [] none).inbox = .request (Ports.select 11) [] none :: [] ∧
    11 ≤ (Ports.select 11).op.toNat := ⟨rfl, by decide⟩

/-- Two states that differ in registers, OUT and a byte the operation does not read. -/
theorem test_witness_ResultsDependOnTheRequestAlone :
    let s := { State.reset with msg := [(0, 0x41)] }
    let u := { s with msg := [(0, 0x41), (1, 0x42)], out := [(0, 1)], calculator := ⟨35⟩ }
    (∀ k < (Instr.text 0 1).bytesRead, Memory.read u.msg k = Memory.read s.msg k) ∧
    (∃ t, exec (.text 0 1) s = .next t ∧ t.res.status = 0#2) ∧ ∃ v, exec (.text 0 1) u = .next v :=
  ⟨by decide, ⟨_, rfl, rfl⟩, ⟨_, rfl⟩⟩

theorem test_witness_ResetBetweenOperationsIsInvisible : ∃ s : State,
    s.inbox = .reset :: .request (Ports.select 4) [0x41] none :: [] ∧ decode (.request (Ports.select 4)) = .instr (.text 0 0) :=
  ⟨State.reset.setInbox [.reset, .request (Ports.select 4) [0x41] none], rfl, rfl⟩

theorem test_witness_MidOperationResetAbandons :
    (State.reset.setInbox [.resetDuring (Ports.select 4) [] none]).inbox = .resetDuring (Ports.select 4) [] none :: [] := rfl

theorem test_witness_SinkSendsTheBuffer :
    let s := { State.reset with out := [(0, 0x7CD215D8)], sink := ⟨0, 2, [true]⟩, inbox := [.sinkWord, .sinkWord] }
    s.sink.index = 0 ∧ s.sink.count = 2 ∧ s.inbox = List.replicate 2 .sinkWord ++ [] := by decide

theorem test_witness_CallersSideIsUnchanged : ∃ t u, exec .nop State.reset = .next t ∧ exec .sync State.reset = .next u :=
  ⟨_, _, rfl, rfl⟩

theorem test_witness_ParametersNeverChange : ∃ t, step State.reset = .next t ∧
    ∀ p m c rest, State.reset.inbox ≠ .request p m c :: rest ∧ State.reset.inbox ≠ .resetDuring p m c :: rest :=
  ⟨State.reset, rfl, fun _ _ _ _ => ⟨by simp [State.reset], by simp [State.reset]⟩⟩

/-- A good state other than reset whose step runs an operation. -/
theorem test_witness_StepKeepsGood : (pending ⟨4, false, 0, 0, 1, 15, 0, 0, 0⟩ [0x41] none).good = true ∧
    ∃ t, step (pending ⟨4, false, 0, 0, 1, 15, 0, 0, 0⟩ [0x41] none) = .next t := ⟨by decide, _, rfl⟩

end Sys2Proof.Tests
end

section
/-! What a step leaves of the parameters (00_scope.md R8, 10_state.md R23) and of MSG (20_memory.md R31), and what it does with nothing
pending (70_reset_and_hazards.md R132). -/

namespace Sys2Proof.Machine

/-- Whatever a request comes to, a rejection or its operation, the caller's side stays. -/
theorem exec_request_callers {i : Instr} {s t : State} (hi : i.isRequest = true) (h : exec i s = .next t) :
    t.msg = s.msg ∧ t.inbox = s.inbox ∧ t.params = s.params ∧ t.outCapacity = s.outCapacity ∧ t.sink = s.sink := by
  rcases exec_cases i s hi with ⟨⟨hw, -, -⟩, hs⟩ | ⟨-, r, hs⟩
  · cases hs.symm.trans h
    exact performOf_callers i s hw
  · cases hs.symm.trans h
    exact ⟨rfl, rfl, rfl, rfl, rfl⟩

/-- A word format changes the sink alone (log 10). -/
theorem exec_wordFormat_eq {i : Instr} {s t : State} (hi : i.isRequest = false) (h : exec i s = .next t) :
    t = s.setSink t.sink := by
  obtain ⟨w, hs⟩ := exec_wordFormat hi s
  cases hs.symm.trans h
  rfl

/-- No event, and no operation it asks for, changes the parameters (log 6). -/
theorem step_params {s t : State} (h : step s = .next t) : t.params = s.params := by
  cases step_cases s with
  | runs _ _ _ _ _ _ _ hi hs =>
    obtain ⟨-, -, hp, -, -⟩ := exec_request_callers hi (hs.symm.trans h)
    exact hp
  | sends _ _ _ hs => rw [exec_wordFormat_eq (decodeWord_isWord _) (hs.symm.trans h)]; rfl
  | waits _ hs | reserved _ _ _ _ _ _ _ hs | resets _ _ hs | abandons _ _ _ _ _ hs | leaves _ _ _ _ hs | starts _ _ _ hs
  | rests _ _ _ hs => cases hs.symm.trans h; rfl

/-- A step that presents no request leaves MSG as it is (R31; logs 5, 12, 18). -/
theorem step_msg_of_presents_nothing {s t : State} (h : step s = .next t)
    (hn : ∀ p m c rest, s.inbox ≠ .request p m c :: rest ∧ s.inbox ≠ .resetDuring p m c :: rest) : t.msg = s.msg := by
  cases step_cases s with
  | runs _ _ _ _ _ he | reserved _ _ _ _ _ he => exact absurd he (hn _ _ _ _).1
  | abandons _ _ _ _ he => exact absurd he (hn _ _ _ _).2
  | sends _ _ _ hs => rw [exec_wordFormat_eq (decodeWord_isWord _) (hs.symm.trans h)]; rfl
  | waits _ hs | resets _ _ hs | leaves _ _ _ _ hs | starts _ _ _ hs | rests _ _ _ hs => cases hs.symm.trans h; rfl

/-- With nothing pending the machine waits (R132). -/
theorem step_of_nothing_pending {s : State} (h : s.inbox = []) : step s = .next s := by
  simp only [step, fetch, h]

/-- Settles O46: a step keeps the parameters whatever its event, and MSG unless the event presents a request. -/
theorem parametersNeverChange : Obligations.ParametersNeverChange := by
  intro s t h
  exact ⟨step_params h, fun hn k => by rw [step_msg_of_presents_nothing h hn]⟩

/-- Settles O1: the reset values as `State.reset` writes them, and the wait from any state. -/
theorem resetValuesAndWaiting : Obligations.ResetValuesAndWaiting :=
  ⟨rfl, rfl, rfl, rfl, by decide, fun _ h => step_of_nothing_pending h⟩

end Sys2Proof.Machine
end

section
/-! A good state is kept: by each event of the caller, by each operation of the block, by each word the sink takes
(60_exceptions.md R114 to R116, 20_memory.md R38; logs 1, 11, 12, 13, 18). -/

namespace Sys2Proof.Machine

/-- What makes a state good, in the terms of the ranges' own laws. -/
theorem State.good_iff (s : State) : s.good = true ↔
    s.msg.wf = true ∧ s.res.legal = true ∧ InRange s ∧ PrefixInRange s ∧ s.sink.index ≤ s.sink.count := by
  simp only [State.good, State.registersInRange, Bool.and_eq_true, decide_eq_true_eq]
  constructor
  · rintro ⟨⟨⟨⟨hm, ho⟩, hr⟩, ⟨⟨⟨⟨hc, hb⟩, hn⟩, hw⟩, hp⟩, he⟩, hk⟩
    exact ⟨hm, hr, ⟨ho, hc, hb, hn, hw⟩, ⟨hp, he⟩, hk⟩
  · rintro ⟨hm, hr, ⟨ho, hc, hb, hn, hw⟩, ⟨hp, he⟩, hk⟩
    exact ⟨⟨⟨⟨hm, ho⟩, hr⟩, ⟨⟨⟨⟨hc, hb⟩, hn⟩, hw⟩, hp⟩, he⟩, hk⟩

/-- `OK` with code 0 is a legal pair (R114). -/
theorem ResultRegs.legal_of_ok {r : ResultRegs} (hs : r.status = statusOK) (hc : r.code = 0#4) : r.legal = true := by
  simp [ResultRegs.legal, hs, hc]

/-- The registers' values after reset are in range, whatever OUT holds (log 1). -/
theorem inRange_resetBlock {s : State} (h : s.out.wf = true) : InRange (resetBlock s) :=
  ⟨h, Nat.zero_le _, Nat.zero_le _, Nat.zero_le _, Nat.zero_le _⟩

theorem prefixInRange_resetBlock (s : State) : PrefixInRange (resetBlock s) := ⟨Nat.zero_le _, rfl⟩

/-! What the caller does. -/

theorem good_setInbox {s : State} (h : s.good = true) (l : List Event) : (s.setInbox l).good = true := h

theorem good_presentRequest {s : State} (h : s.good = true) (message : List Byte) (capacity : Option Nat) :
    (presentRequest message capacity s).good = true := by
  obtain ⟨hm, hr, hi, hp, hk⟩ := s.good_iff.1 h
  exact (State.good_iff _).2 ⟨Memory.wf_place message 0 hm, hr, hi.congr rfl rfl rfl, hp.congr rfl, hk⟩

theorem good_resetBlock {s : State} (h : s.good = true) : (resetBlock s).good = true := by
  obtain ⟨hm, -, hi, -, hk⟩ := s.good_iff.1 h
  exact (State.good_iff _).2 ⟨hm, rfl, inRange_resetBlock hi.out, prefixInRange_resetBlock s, hk⟩

/-- OUT may become anything in canonical form. -/
theorem good_setOut {s : State} (h : s.good = true) {o : OutSpace} (ho : o.wf = true) : (s.setOut o).good = true := by
  obtain ⟨hm, hr, ⟨-, hc, hb, hn, hw⟩, hp, hk⟩ := s.good_iff.1 h
  exact (State.good_iff _).2 ⟨hm, hr, ⟨ho, hc, hb, hn, hw⟩, hp, hk⟩

theorem good_resetMidOperation {s : State} (h : s.good = true) : (resetMidOperation s).good = true :=
  good_setOut (good_resetBlock h) (o := []) rfl

theorem good_leaveInOut {s : State} (h : s.good = true) (first : Nat) (words : List Word) :
    (leaveInOut first words s).good = true := by
  obtain ⟨-, -, hi, -, -⟩ := s.good_iff.1 h
  exact good_setOut h (OutSpace.wf_place words first hi.out)

/-- The sink may become any sink within its buffer. -/
theorem good_setSink {s : State} (h : s.good = true) {k : SinkState} (hk : k.index ≤ k.count) : (s.setSink k).good = true := by
  obtain ⟨hm, hr, hi, hp, -⟩ := s.good_iff.1 h
  exact (State.good_iff _).2 ⟨hm, hr, hi.congr rfl rfl rfl, hp.congr rfl, hk⟩

theorem good_startSink {s : State} (h : s.good = true) (n : Nat) : (startSink n s).good = true :=
  good_setSink h (Nat.zero_le n)

/-! What an instruction does. -/

theorem good_reject {s : State} (h : s.good = true) (r : Rejection) : (reject r s).good = true := by
  obtain ⟨hm, -, hi, hp, hk⟩ := s.good_iff.1 h
  exact (State.good_iff _).2 ⟨hm, reject_legal r s, hi.congr rfl rfl rfl, hp.congr rfl, hk⟩

theorem good_performOf {i : Instr} {s : State} (hi : i.isRequest = true) (hw : i.wellFormed = true) (h : s.good = true) :
    (performOf i s).good = true := by
  obtain ⟨hm, -, hr, hp, hk⟩ := s.good_iff.1 h
  obtain ⟨hmsg, -, -, -, hsink⟩ := performOf_callers i s hw
  obtain ⟨hstatus, hcode⟩ := performOf_ok i s hi
  obtain ⟨hr', hp'⟩ := performOf_inRange i hr hp
  exact (State.good_iff _).2 ⟨hmsg ▸ hm, ResultRegs.legal_of_ok hstatus hcode, hr', hp', hsink ▸ hk⟩

/-- A request keeps a good state, carried out or rejected. -/
theorem good_exec_request {i : Instr} {s t : State} (hi : i.isRequest = true) (h : s.good = true) (ht : exec i s = .next t) :
    t.good = true := by
  rcases exec_cases i s hi with ⟨⟨hw, -, -⟩, hs⟩ | ⟨-, r, hs⟩
  · cases hs.symm.trans ht
    exact good_performOf hi hw h
  · cases hs.symm.trans ht
    exact good_reject h r

/-- A word the sink has left to take keeps it within its buffer (R38). -/
theorem good_exec_word {i : Instr} {s t : State} (hi : i.isRequest = false) (h : s.good = true)
    (hk : s.sink.index < s.sink.count) (ht : exec i s = .next t) : t.good = true := by
  obtain ⟨w, hs⟩ := exec_wordFormat hi s
  cases hs.symm.trans ht
  exact good_setSink h hk

/-- Settles O48: each of the nine cases of a step keeps a good state. -/
theorem stepKeepsGood : Obligations.StepKeepsGood := by
  intro s t h ht
  cases step_cases s with
  | runs _ message capacity rest i _ _ hi hs =>
    exact good_exec_request hi (good_presentRequest (good_setInbox h rest) message capacity) (hs.symm.trans ht)
  | sends rest _ hk hs => exact good_exec_word (decodeWord_isWord _) (good_setInbox h rest) hk (hs.symm.trans ht)
  | reserved _ message capacity rest _ _ _ hs =>
    cases hs.symm.trans ht
    exact good_reject (good_presentRequest (good_setInbox h rest) message capacity) _
  | abandons _ message capacity rest _ hs =>
    cases hs.symm.trans ht
    exact good_resetMidOperation (good_presentRequest (good_setInbox h rest) message capacity)
  | resets rest _ hs => cases hs.symm.trans ht; exact good_resetBlock (good_setInbox h rest)
  | leaves first words rest _ hs => cases hs.symm.trans ht; exact good_leaveInOut (good_setInbox h rest) first words
  | starts n rest _ hs => cases hs.symm.trans ht; exact good_startSink (good_setInbox h rest) n
  | rests rest _ _ hs => cases hs.symm.trans ht; exact good_setInbox h rest
  | waits _ hs => cases hs.symm.trans ht; exact h

/-- Settles O47: nothing is listed, the result pair is `OK` with code 0, every register and the sink stand at 0 (logs 1, 11, 12, 13). -/
theorem resetIsGood : Obligations.ResetIsGood :=
  State.reset.good_iff.2 ⟨rfl, ResultRegs.legal_of_ok rfl rfl, inRange_resetBlock (s := State.reset) rfl,
    prefixInRange_resetBlock State.reset, Nat.le_refl 0⟩

end Sys2Proof.Machine
end

section
/-! What an operation returns is a function of the request and the message bytes it reads (10_state.md R11, R28, 60_exceptions.md
R122), and what no instruction touches (R12, R23, 20_memory.md R29, R31). -/

namespace Sys2Proof.Machine

/-- R35: the words an operation writes when it ends `OK`, from index 0 on, for a message. -/
def writtenWords (message : Nat → Byte) : Instr → List Word
  | .text o L => streamWords o (streamBit false message L) (layoutMessageWords false L)
  | .numeric o L => streamWords o (streamBit true message L) (layoutMessageWords true L)
  | .transmit n a f L => transmissionOf n a f message L
  | .crc _ | .parity _ | .codeword _ | .digit _ | .addroff _ | .textlen _ _ | .numlen _ _ | .nop | .sync | .idle
  | .preambleWord | .addressWord _ _ _ _ | .messageWord _ _ _ => []

theorem length_writtenWords (message : Nat → Byte) {i : Instr} (hw : i.wellFormed = true) :
    (writtenWords message i).length = i.wordsWritten := by
  cases i with
  | text o L => exact length_streamWords (o := o) (by simpa [Instr.wellFormed] using hw) _ _
  | numeric o L => exact length_streamWords (o := o) (by simpa [Instr.wellFormed] using hw) _ _
  | transmit n a f L => exact length_transmissionOf n a f message L
  | crc | parity | codeword | digit | addroff | textlen | numlen | nop | sync | idle | preambleWord | addressWord
  | messageWord => rfl

/-- R31: no byte above those the operation reads matters. -/
theorem writtenWords_congr {f g : Nat → Byte} {i : Instr} (h : ∀ k < i.bytesRead, f k = g k) :
    writtenWords f i = writtenWords g i := by
  cases i with
  | text o L => rw [writtenWords, writtenWords, streamBit_congr (L := L) false h]
  | numeric o L => rw [writtenWords, writtenWords, streamBit_congr (L := L) true h]
  | transmit n a fn L => rw [writtenWords, writtenWords, transmissionOf, transmissionOf, streamBit_congr (L := L) n h]
  | crc | parity | codeword | digit | addroff | textlen | numlen | nop | sync | idle | preambleWord | addressWord
  | messageWord => rfl

/-- All that an admitted operation does to OUT (R35). -/
theorem performOf_out {i : Instr} (hw : i.wellFormed = true) (s : State) :
    (performOf i s).out = OutSpace.place s.out 0 (writtenWords (Memory.read s.msg) i) := by
  cases i with
  | text o L => exact (performEncoder_out false (o := o) (by simpa [Instr.wellFormed] using hw) L s).2
  | numeric o L => exact (performEncoder_out true (o := o) (by simpa [Instr.wellFormed] using hw) L s).2
  | transmit n a f L =>
    have ha : a < 2 ^ 21 ∧ f < 2 ^ 2 := by simpa [Instr.wellFormed] using hw
    exact (performTransmit_out n ha.1 f L s).2
  | crc | parity | codeword | digit | addroff | textlen | numlen | nop | sync | idle | preambleWord | addressWord
  | messageWord => rfl

/-- R13: the value is the operand's. -/
theorem performOf_value_eq {i : Instr} (hv : i.returnsValue = true) (s u : State) :
    (performOf i u).res.value = (performOf i s).res.value := by
  cases i with
  | crc | parity | codeword | digit => rfl
  | text | numeric | transmit | addroff | textlen | numlen | nop | sync | idle | preambleWord | addressWord | messageWord =>
    cases hv

/-- R13: the count is the operands'. -/
theorem performOf_count_eq {i : Instr} (hw : i.wellFormed = true) (hc : i.returnsCount = true) (s u : State) :
    (performOf i u).res.count = (performOf i s).res.count := by
  cases i with
  | text o L =>
    have ho : o < 2 ^ 4 := by simpa [Instr.wellFormed] using hw
    exact (performEncoder_out false ho L u).1.trans (performEncoder_out false ho L s).1.symm
  | numeric o L =>
    have ho : o < 2 ^ 4 := by simpa [Instr.wellFormed] using hw
    exact (performEncoder_out true ho L u).1.trans (performEncoder_out true ho L s).1.symm
  | transmit n a f L =>
    have ha : a < 2 ^ 21 ∧ f < 2 ^ 2 := by simpa [Instr.wellFormed] using hw
    exact (performTransmit_out n ha.1 f L u).1.trans (performTransmit_out n ha.1 f L s).1.symm
  | addroff | textlen | numlen => rfl
  | crc | parity | codeword | digit | nop | sync | idle | preambleWord | addressWord | messageWord => cases hc

/-- R120: the checks read the bound and the capacity alone. -/
theorem checkRequest_congr {s u : State} (hp : u.params = s.params) (hc : u.outCapacity = s.outCapacity) (fits : Bool)
    (counts : List Nat) (words : Nat) : checkRequest fits counts words u = checkRequest fits counts words s := by
  rw [checkRequest, hp, hc]; rfl

/-- R120, R121: under one bound and one capacity a request meets one verdict. -/
theorem exec_verdict {i : Instr} {s u : State} (hi : i.isRequest = true) (hp : u.params = s.params)
    (hc : u.outCapacity = s.outCapacity) :
    (i.wellFormed = true ∧ exec i s = .next (performOf i s) ∧ exec i u = .next (performOf i u)) ∨
    (∃ r, exec i s = .next (reject r s) ∧ exec i u = .next (reject r u)) := by
  rw [exec_request i s hi, exec_request i u hi, checkRequest_congr hp hc]
  rcases checkRequest_cases i.wellFormed i.boundedCounts i.wordsWritten s with
    ⟨-, e⟩ | ⟨-, -, e⟩ | ⟨-, -, -, e⟩ | ⟨hw, -, -, e⟩
  · exact .inr ⟨.operandTooWide, by rw [e]; exact ⟨rfl, rfl⟩⟩
  · exact .inr ⟨.lengthTooLarge, by rw [e]; exact ⟨rfl, rfl⟩⟩
  · exact .inr ⟨.outputOverrun, by rw [e]; exact ⟨rfl, rfl⟩⟩
  · exact .inl ⟨hw, by rw [e]; exact ⟨rfl, rfl⟩⟩

/-- R35: below its count an operation's words depend on the message bytes it reads alone. -/
theorem performOf_read_eq {i : Instr} {s u : State} (hw : i.wellFormed = true)
    (hm : ∀ k < i.bytesRead, Memory.read u.msg k = Memory.read s.msg k) {k : Nat} (hk : k < i.wordsWritten) :
    OutSpace.read (performOf i u).out k = OutSpace.read (performOf i s).out k := by
  have hlen : 0 ≤ k ∧ k < 0 + (writtenWords (Memory.read s.msg) i).length := by rw [length_writtenWords _ hw]; omega
  rw [performOf_out hw, performOf_out hw, writtenWords_congr hm, OutSpace.read_place, OutSpace.read_place, if_pos hlen,
    if_pos hlen]

/-- Settles O40: both states meet the same verdict; a rejection reports its own pair, and an admitted operation returns the same and
writes the same words. -/
theorem resultsDependOnTheRequestAlone : Obligations.ResultsDependOnTheRequestAlone := by
  intro i s u t v hi hp hc hm ht hv
  rcases exec_verdict hi hp hc with ⟨hw, hs, hu⟩ | ⟨r, hs, hu⟩ <;> cases hs.symm.trans ht <;> cases hu.symm.trans hv
  · obtain ⟨hst, hcode⟩ := performOf_ok i s hi
    obtain ⟨hst', hcode'⟩ := performOf_ok i u hi
    exact ⟨hst'.trans hst.symm, hcode'.trans hcode.symm, fun _ h => performOf_value_eq h s u,
      fun _ h => performOf_count_eq hw h s u, fun _ _ hk => performOf_read_eq hw hm hk⟩
  · have hn : ¬ (reject r s).res.status = 0#2 := rejectStatus_ne_ok r
    exact ⟨rfl, rfl, fun h => absurd h hn, fun h => absurd h hn, fun h => absurd h hn⟩

/-- Settles O45: a request leaves the caller's side and the sink, a word format everything but the sink. -/
theorem callersSideIsUnchanged : Obligations.CallersSideIsUnchanged := by
  intro i s t h
  cases hi : i.isRequest with
  | true =>
    obtain ⟨hmsg, hinbox, hparams, hcapacity, hsink⟩ := exec_request_callers hi h
    exact ⟨hmsg, hinbox, hparams, hcapacity, fun _ => hsink, nofun⟩
  | false =>
    have ht := exec_wordFormat_eq hi h
    rw [ht]
    exact ⟨rfl, rfl, rfl, rfl, nofun, fun _ => rfl⟩

end Sys2Proof.Machine
end

section
/-! The order of `PHASE` (43_frame_assembler.md R104). -/

namespace Sys2Proof.Machine

/-- R20, R104: the value after a value of `PHASE`; the last one stays. -/
def Phase.next : Phase → Phase
  | .s1Preamble => .s2Sync
  | .s2Sync => .s3Prefix
  | .s3Prefix => .s4Address
  | .s4Address => .s5Message
  | .s5Message => .s6End
  | .s6End => .s7Pad
  | .s7Pad => .done
  | .done => .done

/-- One step moves `PHASE` to the next value, whatever the step writes. -/
theorem phaseStep_phase (s : State) : (phaseStep s).assembler.phase = s.assembler.phase.next := by
  cases h : s.assembler.phase <;> simp only [phaseStep, h] <;> rfl

/-- So `n` steps move it by `n` values. -/
theorem loop_phaseStep_phase (n : Nat) (s : State) :
    (loop n phaseStep s).assembler.phase = Phase.next^[n] s.assembler.phase := by
  induction n generalizing s with
  | zero => rfl
  | succ n ih => rw [loop, ih, phaseStep_phase, Function.iterate_succ_apply]

/-- Settles O27: from `S1_PREAMBLE`, the values of `Phase.next` in turn. -/
theorem phasesInOrder : Obligations.PhasesInOrder := by
  have horder : ∀ k ≤ 7, Phase.next^[k] .s1Preamble =
    [Phase.s1Preamble, .s2Sync, .s3Prefix, .s4Address, .s5Message, .s6End, .s7Pad, .done].getD k .done := by decide
  intro s k hk
  rw [loop_phaseStep_phase]
  exact horder k hk

end Sys2Proof.Machine
end

section
/-! What each operation leaves unchanged (20_memory.md R29, R35, R36, 60_exceptions.md R121): the registers it does not use, and the
words of OUT it does not write. -/

namespace Sys2Proof.Machine

/-- An admitted operation writes no word of OUT from its count on (R35). -/
theorem performOf_read_above {i : Instr} (hw : i.wellFormed = true) (s : State) {k : Nat} (hk : i.wordsWritten ≤ k) :
    OutSpace.read (performOf i s).out k = OutSpace.read s.out k := by
  rw [performOf_out hw, OutSpace.read_place, if_neg (by rw [length_writtenWords _ hw]; omega)]

/-- From its count on, and everywhere when it does not end `OK`, a request leaves OUT as it was (R35, R121). -/
theorem exec_request_read_unwritten {i : Instr} {s t : State} (hi : i.isRequest = true) (h : exec i s = .next t) {k : Nat}
    (hk : i.wordsWritten ≤ k ∨ t.res.status ≠ 0#2) : OutSpace.read t.out k = OutSpace.read s.out k := by
  rcases exec_cases i s hi with ⟨⟨hw, -, -⟩, hs⟩ | ⟨-, r, hs⟩
  · cases hs.symm.trans h
    obtain ⟨hok, -⟩ := performOf_ok i s hi
    exact performOf_read_above hw s (hk.resolve_right (absurd hok))
  · cases hs.symm.trans h
    rfl

/-! The registers. -/

/-- R29, R35: between `s` and `t` nothing changed but what TEXT and NUMERIC may write, OUT taken as a whole (logs 3, 8). -/
def KeepsEncoderFrame (s t : State) : Prop :=
  t = { s with req := { s.req with op := t.req.op, offset := t.req.offset, length := t.req.length }, res := t.res,
               checksum := t.checksum, packer := t.packer, encoder := t.encoder,
               assembler := { s.assembler with outptr := t.assembler.outptr }, out := t.out, freeIndex := t.freeIndex }

/-- R29, R36: likewise for TRANSMIT (logs 3, 8, 17). -/
def KeepsTransmitFrame (s t : State) : Prop :=
  t = { s with req := { s.req with op := t.req.op, numeric := t.req.numeric, address := t.req.address,
                                   function := t.req.function, length := t.req.length },
               res := t.res, checksum := t.checksum, packer := t.packer, encoder := t.encoder,
               assembler := t.assembler, out := t.out, freeIndex := t.freeIndex }

/-- R29, R35: likewise for the operations that neither read MSG nor write OUT; `i` says whose registers it uses (log 3). -/
def KeepsRegisterFrame (i : Instr) (s t : State) : Prop :=
  t = { s with req := t.req, res := t.res, checksum := t.checksum, packer := t.packer, calculator := t.calculator,
               freeIndex := t.freeIndex } ∧
  ((∀ d, i ≠ .crc d ∧ i ≠ .codeword d) → t.checksum = s.checksum) ∧ ((∀ d, i ≠ .codeword d) → t.packer = s.packer) ∧
  ((∀ a L, i ≠ .textlen a L ∧ i ≠ .numlen a L) → t.calculator = s.calculator)

/-- An encoder's run from the state with its operands loaded and the cursor cleared, once its count is reported, keeps the frame. -/
theorem EncoderOnly.finishCount_keepsFrame {s t : State} {op offset : BitVec 4} {L : Nat}
    (h : EncoderOnly (clearOutptr (s.setReq { s.req with op, offset, length := L })) t) (n : Nat) :
    KeepsEncoderFrame s (finishCount n t) := by
  rw [h.eq]; rfl

/-- A transmission from the state with its operands loaded, once its count is reported, keeps the frame. -/
theorem Transmitted.finishCount_keepsFrame {s t : State} {numeric : Bool} {a fn L : Nat}
    (h : Transmitted (loadTransmit numeric a fn L s) t) (n : Nat) : KeepsTransmitFrame s (finishCount n t) := by
  rw [h.eq]; rfl

theorem performText_keepsFrame {o : Nat} (ho : o < 2 ^ 4) (L : Nat) (s : State) : KeepsEncoderFrame s (performText o L s) := by
  obtain ⟨u, t, rfl, hr, he⟩ := performText_run ho L s
  exact he ▸ hr.only.finishCount_keepsFrame _

theorem performNumeric_keepsFrame {o : Nat} (ho : o < 2 ^ 4) (L : Nat) (s : State) : KeepsEncoderFrame s (performNumeric o L s) := by
  obtain ⟨u, t, rfl, hr, he⟩ := performNumeric_run ho L s
  exact he ▸ hr.only.finishCount_keepsFrame _

theorem performTransmit_keepsFrame (numeric : Bool) (a fn L : Nat) (s : State) :
    KeepsTransmitFrame s (performTransmit numeric a fn L s) := by
  obtain ⟨t, hr, he⟩ := performTransmit_run numeric a fn L s
  exact he ▸ hr.finishCount_keepsFrame _

/-- Each register-only operation, its own components aside, writes the request registers and the result. -/
theorem performOf_keepsRegisterFrame {i : Instr} (hi : i.isRequest = true) (he : ∀ o L, i ≠ .text o L ∧ i ≠ .numeric o L)
    (ht : ∀ n a fn L, i ≠ .transmit n a fn L) (s : State) : KeepsRegisterFrame i s (performOf i s) := by
  cases i with
  | text o L => exact absurd rfl (he o L).1
  | numeric o L => exact absurd rfl (he o L).2
  | transmit n a fn L => exact absurd rfl (ht n a fn L)
  | crc d => exact ⟨rfl, fun h => absurd rfl (h d).1, fun _ => rfl, fun _ => rfl⟩
  | codeword d => exact ⟨rfl, fun h => absurd rfl (h d).2, fun h => absurd rfl (h d), fun _ => rfl⟩
  | textlen a L => exact ⟨rfl, fun _ => rfl, fun _ => rfl, fun h => absurd rfl (h a L).1⟩
  | numlen a L => exact ⟨rfl, fun _ => rfl, fun _ => rfl, fun h => absurd rfl (h a L).2⟩
  | parity | digit | addroff | nop => exact ⟨rfl, fun _ => rfl, fun _ => rfl, fun _ => rfl⟩
  | sync | idle | preambleWord | addressWord | messageWord => cases hi

/-- Settles O23: an admitted encoder keeps its frame, a rejection changes the result alone, and neither writes OUT above the count. -/
theorem encodersFrame : Obligations.EncodersFrame := by
  intro i o L s t hi h
  have hreq : i.isRequest = true := by rcases hi with rfl | rfl <;> rfl
  refine ⟨?_, fun k hk => exec_request_read_unwritten hreq h hk⟩
  change KeepsEncoderFrame s t
  rcases exec_cases i s hreq with ⟨⟨hw, -, -⟩, hs⟩ | ⟨-, r, hs⟩
  · cases hs.symm.trans h
    rcases hi with rfl | rfl
    · exact performText_keepsFrame (by simpa [Instr.wellFormed] using hw) L s
    · exact performNumeric_keepsFrame (by simpa [Instr.wellFormed] using hw) L s
  · cases hs.symm.trans h
    rfl

/-- Settles O29: an admitted TRANSMIT keeps its frame, a rejection changes the result alone, and neither writes OUT above the count. -/
theorem transmitFrame : Obligations.TransmitFrame := by
  intro numeric a fn L s t h
  refine ⟨?_, fun k hk => exec_request_read_unwritten rfl h hk⟩
  change KeepsTransmitFrame s t
  rcases exec_cases (.transmit numeric a fn L) s rfl with ⟨-, hs⟩ | ⟨-, r, hs⟩
  · cases hs.symm.trans h
    exact performTransmit_keepsFrame numeric a fn L s
  · cases hs.symm.trans h
    rfl

/-- Settles O35: by the operation where it is admitted; a rejection changes the result alone. -/
theorem registerOperationsFrame : Obligations.RegisterOperationsFrame := by
  intro i s t hi he ht h
  change KeepsRegisterFrame i s t
  rcases exec_cases i s hi with ⟨-, hs⟩ | ⟨-, r, hs⟩
  · cases hs.symm.trans h
    exact performOf_keepsRegisterFrame hi he ht s
  · cases hs.symm.trans h
    exact ⟨rfl, fun _ => rfl, fun _ => rfl, fun _ => rfl⟩

end Sys2Proof.Machine
end

section
/-! The two wide word formats as numbers (30_encoding.md R41, R43, R44), and the word an instruction of the sink was decoded from
(R62). -/

namespace Sys2Proof

theorem toNat_append_eq_add {n m : Nat} (x : BitVec n) (y : BitVec m) : (x ++ y).toNat = x.toNat * 2 ^ m + y.toNat := by
  rw [BitVec.toNat_append, ← Nat.shiftLeft_add_eq_or_of_lt y.isLt, Nat.shiftLeft_eq]

theorem addressBits_eq_ofNat (a : BitVec 18) (f : BitVec 2) (c : BitVec 10) (p : Bool) :
    addressBits a f c p = BitVec.ofNat 32 (a.toNat * 2 ^ 13 + f.toNat * 2 ^ 11 + c.toNat * 2 + p.toNat) := by
  have ha := a.isLt; have hf := f.isLt; have hc := c.isLt; have hp := p.toNat_lt
  refine BitVec.eq_of_toNat_eq ?_
  simp only [addressBits, BitVec.toNat_concat, toNat_append_eq_add, BitVec.toNat_ofNat]
  omega

theorem messageBits_eq_ofNat (d : Field20) (c : BitVec 10) (p : Bool) :
    messageBits d c p = BitVec.ofNat 32 (2 ^ 31 + d.toNat * 2 ^ 11 + c.toNat * 2 + p.toNat) := by
  have hd := d.isLt; have hc := c.isLt; have hp := p.toNat_lt
  refine BitVec.eq_of_toNat_eq ?_
  simp only [messageBits, BitVec.toNat_concat, toNat_append_eq_add, BitVec.toNat_ofNat]
  omega

/-- R62: the fields read from a word of an address word's form give the word back. -/
theorem addressBits_extract {w : Word} (h : w.getLsbD 31 = false) :
    addressBits (w.extractLsb' 13 18) (w.extractLsb' 11 2) (w.extractLsb' 1 10) (w.getLsbD 0) = w := by
  refine BitVec.eq_of_getLsbD_eq fun j hj => ?_
  simp only [getLsbD_addressBits, BitVec.getLsbD_extractLsb']
  split_ifs with h0 h1 h2 h3
  · rw [h0]
  · rw [decide_eq_true h1, Bool.true_and, show 1 + (j - 1) = j by omega]
  · rw [decide_eq_true h2, Bool.true_and, show 11 + (j - 11) = j by omega]
  · rw [decide_eq_true h3, Bool.true_and, show 13 + (j - 13) = j by omega]
  · rw [show j = 31 by omega, h]

/-- R62: likewise for a message word. -/
theorem messageBits_extract {w : Word} (h : w.getLsbD 31 = true) :
    messageBits (w.extractLsb' 11 20) (w.extractLsb' 1 10) (w.getLsbD 0) = w := by
  refine BitVec.eq_of_getLsbD_eq fun j hj => ?_
  simp only [getLsbD_messageBits, BitVec.getLsbD_extractLsb']
  split_ifs with h0 h1 h2
  · rw [h0]
  · rw [decide_eq_true h1, Bool.true_and, show 1 + (j - 1) = j by omega]
  · rw [decide_eq_true h2, Bool.true_and, show 11 + (j - 11) = j by omega]
  · rw [show j = 31 by omega, h]; rfl

/-- R62: the row a word decodes to encodes to that word. -/
theorem encode_decodeWord (w : Word) : encode (decodeWord w) = .word w := by
  unfold decodeWord
  split_ifs with hs hi hp h
  · exact congrArg Encoded.word hs.symm
  · exact congrArg Encoded.word hi.symm
  · exact congrArg Encoded.word hp.symm
  · exact congrArg Encoded.word (messageBits_extract h)
  · exact congrArg Encoded.word (addressBits_extract (Bool.not_eq_true _ ▸ h))

end Sys2Proof
end

section
/-! The sink at the boundary (20_memory.md R38; logs 10, 11): the levels of one word and of a whole buffer, the sink's own steps, and
what a reader of OUT sees through a step (R29, R30, R35; logs 5, 13, 18, 24). -/

namespace Sys2Proof.Machine

/-! The levels of one word. -/

theorem lineLevel_eq (p : Config.Polarity) (b : Bool) : lineLevel p b = if p = .normal then !b else b := by cases p <;> rfl

@[simp] theorem length_lineLevels (p : Config.Polarity) (w : Word) (n : Nat) : (lineLevels p w n).length = n := by
  induction n with
  | zero => rfl
  | succ n ih => rw [lineLevels, List.length_cons, ih]

/-- R38: the place a bit's level has among those of the `n` low bits, most significant first. -/
theorem getElem?_lineLevels (p : Config.Polarity) (w : Word) {n j : Nat} (hj : j < n) :
    (lineLevels p w n)[j]? = some (lineLevel p (w.getLsbD (n - 1 - j))) := by
  induction n generalizing j with
  | zero => exact absurd hj (Nat.not_lt_zero j)
  | succ n ih =>
    cases j with
    | zero => rfl
    | succ j => rw [lineLevels, List.getElem?_cons_succ, ih (by omega), show n + 1 - 1 - (j + 1) = n - 1 - j by omega]

theorem lineLevels_eq_map (p : Config.Polarity) (w : Word) :
    lineLevels p w 32 = (List.range 32).map fun j => if p = .normal then !w.getLsbD (31 - j) else w.getLsbD (31 - j) := by
  refine List.ext_getElem? fun j => ?_
  by_cases hj : j < 32
  · rw [getElem?_lineLevels p w hj, List.getElem?_map, List.getElem?_range hj, lineLevel_eq]; rfl
  · rw [List.getElem?_eq_none (by simpa using hj), List.getElem?_eq_none (by simpa using hj)]

/-- R38: all that the sending of a word does. -/
theorem sinkSend_eq (w : Word) (s : State) : sinkSend w s = .next { s with sink := ⟨s.sink.index + 1, s.sink.count,
    s.sink.line ++ (List.range 32).map fun j => if s.params.polarity = .normal then !w.getLsbD (31 - j) else w.getLsbD (31 - j)⟩ } := by
  rw [← lineLevels_eq_map]; rfl

/-- Settles O43: each word format sends its word, the two wide ones by their fields' numbers. -/
theorem wordFormatsSend : Obligations.WordFormatsSend :=
  fun s => ⟨sinkSend_eq _ s, sinkSend_eq _ s, sinkSend_eq _ s,
    fun a f c p => (addressBits_eq_ofNat a f c p).symm ▸ sinkSend_eq (addressBits a f c p) s,
    fun d c p => (messageBits_eq_ofNat d c p).symm ▸ sinkSend_eq (messageBits d c p) s⟩

/-! The sink's steps. -/

theorem step_sinkWord {s : State} {rest : List Event} (h : s.inbox = .sinkWord :: rest) :
    step s = if s.sink.index < s.sink.count then exec (decodeWord (s.outWord s.sink.index)) (s.setInbox rest)
      else .next (s.setInbox rest) := by
  cases step_cases s with
  | sends rest' h' hk hs => cases h.symm.trans h'; rw [if_pos hk, hs]
  | rests rest' h' hk hs => cases h.symm.trans h'; rw [if_neg (by omega), hs]
  | waits h' | runs _ _ _ _ _ h' | reserved _ _ _ _ _ h' | resets _ h' | abandons _ _ _ _ h' | leaves _ _ _ h' | starts _ _ h' =>
    cases h.symm.trans h'

/-- Settles O3: by whether the sink has a word left. -/
theorem stepRunsTheSinksNextWord : Obligations.StepRunsTheSinksNextWord := by
  intro s rest h
  have hsend : s.sink.index < s.sink.count → step s = exec (decodeWord (s.outWord s.sink.index)) { s with inbox := rest } :=
    fun hk => (step_sinkWord h).trans (if_pos hk)
  exact ⟨hsend, fun w hk hw => State.outWord_of_read hw ▸ hsend hk,
    fun hk => (step_sinkWord h).trans (if_neg (Nat.not_lt.2 hk))⟩

/-- Settles O4: the whole next state of the hand-over. -/
theorem sinkStartHandsOverTheBuffer : Obligations.SinkStartHandsOverTheBuffer := by
  intro s rest n h
  simp only [step, fetch, h]
  rfl

/-! A whole buffer. -/

/-- R38: the levels of `n` words from index `k` on, the words given by index. -/
def bufferLevels (p : Config.Polarity) (word : Nat → Word) (k : Nat) : (n : Nat) → List Bool
  | 0 => []
  | n + 1 => lineLevels p (word k) 32 ++ bufferLevels p word (k + 1) n

@[simp] theorem length_bufferLevels (p : Config.Polarity) (word : Nat → Word) (k n : Nat) :
    (bufferLevels p word k n).length = 32 * n := by
  induction n generalizing k with
  | zero => rfl
  | succ n ih => rw [bufferLevels, List.length_append, length_lineLevels, ih]; omega

/-- Word `i` of a buffer has places `32 i` to `32 i + 31`, bit 31 first. -/
theorem getElem?_bufferLevels (p : Config.Polarity) (word : Nat → Word) {k n i j : Nat} (hi : i < n) (hj : j < 32) :
    (bufferLevels p word k n)[32 * i + j]? = some (lineLevel p ((word (k + i)).getLsbD (31 - j))) := by
  induction n generalizing k i with
  | zero => exact absurd hi (Nat.not_lt_zero i)
  | succ n ih =>
    rw [bufferLevels]
    cases i with
    | zero => rw [List.getElem?_append_left (by simp; omega), Nat.mul_zero, Nat.zero_add, getElem?_lineLevels p _ hj]; rfl
    | succ i =>
      rw [List.getElem?_append_right (by simp; omega), length_lineLevels, show 32 * (i + 1) + j - 32 = 32 * i + j by omega,
        ih (by omega), show k + 1 + i = k + (i + 1) by omega]

/-- One word taken: the sink has sent what a reader of OUT sees at its index (R35, R38). -/
theorem step_sends {s : State} {rest : List Event} (h : s.inbox = .sinkWord :: rest) (hk : s.sink.index < s.sink.count) :
    step s = .next { s with inbox := rest, sink := ⟨s.sink.index + 1, s.sink.count,
      s.sink.line ++ lineLevels s.params.polarity (s.outWord s.sink.index) 32⟩ } := by
  rw [step_sinkWord h, if_pos hk, exec_word (encode_decodeWord _)]; rfl

/-- As many words taken as the sink still has, from any of its states. -/
theorem run_sends (n : Nat) {s : State} {rest : List Event} (h : s.inbox = List.replicate n .sinkWord ++ rest)
    (hk : s.sink.index + n ≤ s.sink.count) :
    Host.Core.run core n s = .next { s with inbox := rest, sink := ⟨s.sink.index + n, s.sink.count,
      s.sink.line ++ bufferLevels s.params.polarity s.outWord s.sink.index n⟩ } := by
  induction n generalizing s with
  | zero => rw [List.replicate_zero, List.nil_append] at h; simp [Host.Core.run, bufferLevels, ← h]
  | succ n ih =>
    rw [run_core_succ n (step_sends h (by omega)), ih rfl (by simp only; omega)]
    simp only [bufferLevels, List.append_assoc, Nat.add_assoc, Nat.add_comm 1 n]
    rfl

/-- Settles O44: the whole buffer's levels are appended to the line, and each place of them is read off. -/
theorem sinkSendsTheBuffer : Obligations.SinkSendsTheBuffer := by
  intro s N rest h0 hN h
  refine ⟨_, run_sends N h (by omega), rfl, rfl, rfl, ?_, fun p hp => List.getElem?_append_left hp, fun k hk j hj => ?_⟩
  · simp only [List.length_append, length_bufferLevels]
  · simp only [Nat.add_assoc, List.getElem?_append_right (Nat.le_add_right _ _), Nat.add_sub_cancel_left]
    rw [getElem?_bufferLevels _ _ hk hj, lineLevel_eq, h0, Nat.zero_add]

/-! What a reader of OUT sees through a step. -/

theorem step_leaveWords {s : State} {first : Nat} {words : List Word} {rest : List Event}
    (h : s.inbox = .leaveWords first words :: rest) : step s = .next (leaveInOut first words (s.setInbox rest)) := by
  simp only [step, fetch, h]

/-- R35: the caller's words, in their order. -/
theorem leaveInOut_outWord_within (first : Nat) (words : List Word) (s : State) {j : Nat} (hj : j < words.length) :
    words[j]? = some ((leaveInOut first words s).outWord (first + j)) := by
  rw [leaveInOut_outWord, if_pos (by omega), Nat.add_sub_cancel_left, List.getElem?_eq_getElem hj]; rfl

/-- No event that neither presents a request nor leaves words changes what a reader of OUT sees (R29, R30; log 18). -/
theorem step_outWord {s t : State} (h : step s = .next t)
    (hp : ∀ p m c rest, s.inbox ≠ .request p m c :: rest ∧ s.inbox ≠ .resetDuring p m c :: rest)
    (hl : ∀ first words rest, s.inbox ≠ .leaveWords first words :: rest) (k : Nat) : t.outWord k = s.outWord k := by
  cases step_cases s with
  | runs _ _ _ _ _ he | reserved _ _ _ _ _ he => exact absurd he (hp _ _ _ _).1
  | abandons _ _ _ _ he => exact absurd he (hp _ _ _ _).2
  | leaves _ _ _ he => exact absurd he (hl _ _ _)
  | sends _ _ _ hs => rw [exec_wordFormat_eq (decodeWord_isWord _) (hs.symm.trans h)]; rfl
  | waits _ hs | resets _ _ hs | starts _ _ _ hs | rests _ _ _ hs => cases hs.symm.trans h; rfl

/-- Settles O49: the caller's words by `OutSpace.place`'s law; every other step that runs no request leaves OUT and its epoch. -/
theorem callersWordsStandInOut : Obligations.CallersWordsStandInOut :=
  ⟨fun s first words rest h => ⟨_, step_leaveWords h, rfl, fun _ hj => leaveInOut_outWord_within first words _ hj,
    fun _ hk => (leaveInOut_outWord first words _ _).trans (if_neg (by omega))⟩,
   fun _ _ h hp hl k => step_outWord h hp hl k⟩

end Sys2Proof.Machine
end

section
/-! The decoder against the encoder (30_encoding.md R58, R62): when a word of a wide format is no other row's word, what each row's
words decode to, and the two round trips. -/

namespace Sys2Proof

/-- R43: the fields of `w` are these exactly when `w` is their address word. -/
theorem hasAddressFields_iff {w : Word} (h : w.getLsbD 31 = false) (a : BitVec 18) (f : BitVec 2) (c : BitVec 10) (p : Bool) :
    hasAddressFields w a f c p = true ↔ addressBits a f c p = w := by
  rw [hasAddressFields, decide_eq_true_eq]
  constructor
  · rintro ⟨rfl, rfl, rfl, rfl⟩
    exact addressBits_extract h
  · rintro rfl
    obtain ⟨ha, hf, hc, hp, -⟩ := addressBits_fields a f c p
    exact ⟨ha, hf, hc, hp⟩

/-- R44: likewise for a message word. -/
theorem hasMessageFields_iff {w : Word} (h : w.getLsbD 31 = true) (d : Field20) (c : BitVec 10) (p : Bool) :
    hasMessageFields w d c p = true ↔ messageBits d c p = w := by
  rw [hasMessageFields, decide_eq_true_eq]
  constructor
  · rintro ⟨rfl, rfl, rfl⟩
    exact messageBits_extract h
  · rintro rfl
    obtain ⟨hd, hc, hp, -⟩ := messageBits_fields d c p
    exact ⟨hd, hc, hp⟩

/-- R46: bit 31 of each fixed word. -/
theorem sync_top : Config.SYNC.getLsbD 31 = false := by decide
theorem idle_top : Config.IDLE.getLsbD 31 = false := by decide
theorem preambleWord_top : Config.PREAMBLE_WORD.getLsbD 31 = true := by decide

/-- R62: an address word is one that can be presented when it is neither SYNC nor IDLE. -/
theorem wellFormed_addressWord_iff (a : BitVec 18) (f : BitVec 2) (c : BitVec 10) (p : Bool) :
    (Instr.addressWord a f c p).wellFormed = true ↔
      addressBits a f c p ≠ Config.SYNC ∧ addressBits a f c p ≠ Config.IDLE := by
  simp only [Instr.wellFormed, Bool.and_eq_true, Bool.not_eq_true', ← Bool.not_eq_true, hasAddressFields_iff sync_top,
    hasAddressFields_iff idle_top, ne_eq]

/-- R62: a message word is one when it is not the preamble word. -/
theorem wellFormed_messageWord_iff (d : Field20) (c : BitVec 10) (p : Bool) :
    (Instr.messageWord d c p).wellFormed = true ↔ messageBits d c p ≠ Config.PREAMBLE_WORD := by
  simp only [Instr.wellFormed, Bool.not_eq_true', ← Bool.not_eq_true, hasMessageFields_iff preambleWord_top, ne_eq]

/-! The rows of the word decoder. -/

/-- R41: the top bit tells a message word's form from an address word's. -/
theorem ne_of_top {v w : Word} (hv : v.getLsbD 31 = false) (hw : w.getLsbD 31 = true) : v ≠ w := by
  rintro rfl
  exact Bool.false_ne_true (hv.symm.trans hw)

theorem decodeWord_sync : decodeWord Config.SYNC = .sync := if_pos rfl

theorem decodeWord_idle : decodeWord Config.IDLE = .idle := by decide

theorem decodeWord_preambleWord : decodeWord Config.PREAMBLE_WORD = .preambleWord := by decide

/-- R62: with bit 31 clear, a word that is neither SYNC nor IDLE is an address word. -/
theorem decodeWord_address {w : Word} (hs : w ≠ Config.SYNC) (hi : w ≠ Config.IDLE) (h : w.getLsbD 31 = false) :
    decodeWord w = .addressWord (w.extractLsb' 13 18) (w.extractLsb' 11 2) (w.extractLsb' 1 10) (w.getLsbD 0) := by
  rw [decodeWord, if_neg hs, if_neg hi, if_neg (ne_of_top h preambleWord_top), if_neg (Bool.not_eq_true _ ▸ h)]

/-- R62: with bit 31 set, a word that is not the preamble word is a message word. -/
theorem decodeWord_message {w : Word} (hp : w ≠ Config.PREAMBLE_WORD) (h : w.getLsbD 31 = true) :
    decodeWord w = .messageWord (w.extractLsb' 11 20) (w.extractLsb' 1 10) (w.getLsbD 0) := by
  rw [decodeWord, if_neg (ne_of_top sync_top h).symm, if_neg (ne_of_top idle_top h).symm, if_neg hp, if_pos h]

/-- Settles O6: a request's row by its operation number; a word's by its bits, the two wide formats by their fields' places once
well-formedness has ruled out the fixed words. -/
theorem decodeOfEncodeIsTheInstruction : Obligations.DecodeOfEncodeIsTheInstruction := by
  intro i hw
  cases i with
  | crc | parity | codeword | digit | text | numeric | transmit | addroff | textlen | numlen | nop => rfl
  | sync => exact congrArg Decoded.instr decodeWord_sync
  | idle => exact congrArg Decoded.instr decodeWord_idle
  | preambleWord => exact congrArg Decoded.instr decodeWord_preambleWord
  | addressWord a f c p =>
    obtain ⟨hs, hi⟩ := (wellFormed_addressWord_iff a f c p).1 hw
    obtain ⟨ha, hf, hc, hp, htop⟩ := addressBits_fields a f c p
    rw [encode, decode, decodeWord_address hs hi htop, ha, hf, hc, hp]
  | messageWord d c p =>
    obtain ⟨hd, hc, hp, htop⟩ := messageBits_fields d c p
    rw [encode, decode, decodeWord_message ((wellFormed_messageWord_iff d c p).1 hw) htop, hd, hc, hp]

/-- R62: every word decodes to an instruction that can be presented. -/
theorem wellFormed_decodeWord (w : Word) : (decodeWord w).wellFormed = true := by
  unfold decodeWord
  split_ifs with hs hi hp h
  · rfl
  · rfl
  · rfl
  · rw [wellFormed_messageWord_iff, messageBits_extract h]
    exact hp
  · rw [wellFormed_addressWord_iff, addressBits_extract (Bool.not_eq_true _ ▸ h)]
    exact ⟨hs, hi⟩

theorem getLsbD_field {w : Word} {start len j : Nat} (hj : j < len) :
    (w.extractLsb' start len).getLsbD j = w.getLsbD (start + j) := by
  rw [BitVec.getLsbD_extractLsb', decide_eq_true hj, Bool.true_and]

/-- Settles O7: by the word's row, its fields read off bit by bit. -/
theorem everyWordDecodesToItsRow : Obligations.EveryWordDecodesToItsRow := by
  intro w
  refine ⟨wellFormed_decodeWord w, encode_decodeWord w, ?_, ?_, ?_, fun hs hi h => ?_, fun hp h => ?_⟩
  · rintro rfl; exact decodeWord_sync
  · rintro rfl; exact decodeWord_idle
  · rintro rfl; exact decodeWord_preambleWord
  · exact ⟨_, _, _, _, decodeWord_address hs hi h, fun _ => getLsbD_field, fun _ => getLsbD_field, fun _ => getLsbD_field, rfl⟩
  · exact ⟨_, _, _, decodeWord_message hp h, fun _ => getLsbD_field, fun _ => getLsbD_field, rfl⟩

/-- Settles O5: a request row by its number, a fixed word by its row, the two wide words by reading their fields. -/
theorem tableWordsDecode : Obligations.TableWordsDecode :=
  ⟨rfl, rfl, rfl, rfl, rfl, rfl, rfl, rfl, rfl, rfl, rfl, by decide, congrArg some decodeWord_sync,
    congrArg some decodeWord_idle, congrArg some decodeWord_preambleWord, by decide, by decide⟩

end Sys2Proof
end

section
/-! Codewords by their data (41_codeword_packer.md R73, R76), and which words of a batch SYNC, IDLE and the preamble word are
(30_encoding.md R52). -/

namespace Sys2Proof.Machine

/-- R76: above its crc field and parity bit a codeword holds its data. -/
theorem getLsbD_codewordOf (d : Data21) (i : Nat) : (codewordOf d).getLsbD (11 + i) = d.getLsbD i := by
  rw [codewordOf, packFull, show 11 + i = (10 + i) + 1 by omega, BitVec.getLsbD_concat, if_neg (Nat.succ_ne_zero _),
    Nat.add_sub_cancel, BitVec.getLsbD_append, if_neg (by omega), Nat.add_sub_cancel_left]

/-- R76: no two data have one codeword. -/
theorem codewordOf_injective : Function.Injective codewordOf := fun a b h =>
  BitVec.eq_of_getLsbD_eq fun i _ => by rw [← getLsbD_codewordOf a, h, getLsbD_codewordOf]

/-! The codewords R52 names. -/

theorem codewordOf_sync : codewordOf 0x0F9A42#21 = Config.SYNC := by decide +kernel
theorem codewordOf_idle : codewordOf 0x0F5138#21 = Config.IDLE := by decide +kernel
theorem codewordOf_preamble_data : codewordOf 0x155555#21 = 0xAAAAAF1B#32 := by decide +kernel

/-- R52: the preamble word is no codeword: the one with its data has other low bits. -/
theorem codewordOf_ne_preambleWord (d : Data21) : codewordOf d ≠ Config.PREAMBLE_WORD := by
  intro h
  have hdata : d = 0x155555#21 := BitVec.eq_of_getLsbD_eq fun i hi => by
    have hbits : ∀ j < 21, Config.PREAMBLE_WORD.getLsbD (11 + j) = (0x155555#21).getLsbD j := by decide
    rw [← getLsbD_codewordOf, h, hbits i hi]
  rw [hdata, codewordOf_preamble_data] at h
  exact absurd h (by decide)

/-- R43: an address word's data as a number. -/
theorem toNat_addressData (a : BitVec 21) (fn : BitVec 2) : (addressData a fn).toNat = a.toNat / 8 * 4 + fn.toNat := by
  have ha := a.isLt
  rw [addressData_eq, toNat_append_eq_add, toNat_append_eq_add, BitVec.extractLsb'_toNat, Nat.shiftRight_eq_div_pow,
    BitVec.toNat_ofNat]
  omega

/-- R43: an address word has the data of codeword `d` exactly for eight addresses and one pair of function bits. -/
theorem codewordOf_addressData_eq_iff (a : BitVec 21) (fn : BitVec 2) (d : Data21) :
    codewordOf (addressData a fn) = codewordOf d ↔ a.toNat / 8 = d.toNat / 4 ∧ fn.toNat = d.toNat % 4 := by
  have hfn := fn.isLt
  rw [codewordOf_injective.eq_iff, ← BitVec.toNat_inj, toNat_addressData]
  omega

/-- R44: no message word is the codeword of data with the flag 0. -/
theorem codewordOf_messageData_ne (f : Field20) {d : Data21} (h : d.getLsbD 20 = false) :
    codewordOf (messageData f) ≠ codewordOf d := by
  intro he
  have hflag : (messageData f).getLsbD 20 = true := by rw [messageData_eq, BitVec.getLsbD_append]; rfl
  rw [codewordOf_injective he, h] at hflag
  exact Bool.false_ne_true hflag

/-- Settles O17: packing is injective, so a word that equals SYNC or IDLE has its data. -/
theorem syncAndIdleAreTheSixteenAddressWords : Obligations.SyncAndIdleAreTheSixteenAddressWords := by
  refine ⟨⟨codewordOf_sync, by decide +kernel, by decide⟩, ⟨codewordOf_idle, by decide +kernel, by decide⟩, fun a fn => ?_,
    fun a fn => ?_, fun f => ⟨?_, ?_, codewordOf_ne_preambleWord _⟩, codewordOf_preamble_data, by decide⟩
  · rw [← codewordOf_sync, codewordOf_addressData_eq_iff, ← BitVec.toNat_inj]
    simp only [BitVec.toNat_ofNat]
    omega
  · rw [← codewordOf_idle, codewordOf_addressData_eq_iff, ← BitVec.toNat_inj]
    simp only [BitVec.toNat_ofNat]
    omega
  · rw [← codewordOf_sync]; exact codewordOf_messageData_ne f (by decide)
  · rw [← codewordOf_idle]; exact codewordOf_messageData_ne f (by decide)

end Sys2Proof.Machine
end

section
/-! The step that runs a presented request, and the request that has nothing to do (30_encoding.md R57, R58, R61). -/

namespace Sys2Proof.Machine

/-- Settles O34: NOP has no operand and no count, so every state admits it. -/
theorem nopCompletes : Obligations.NopCompletes := fun _ =>
  ⟨_, _, exec_admissible (i := .nop) rfl ⟨rfl, nofun, within_zero _⟩⟩

theorem step_request {s : State} {ports : Ports} {message : List Byte} {capacity : Option Nat} {rest : List Event} {i : Instr}
    (h : s.inbox = .request ports message capacity :: rest) (hd : decodePorts ports = .instr i) :
    step s = exec i (presentRequest message capacity (s.setInbox rest)) := by
  simp only [step, fetch, h, fetchRequest, hd]

/-- Settles O2: the state the instruction runs from is the one with the request presented, its bytes read back by place. -/
theorem stepRunsTheDecodedRequest : Obligations.StepRunsTheDecodedRequest := by
  intro s _ message _ _ _ h hd
  exact ⟨Memory.place s.msg 0 message, fun k => by rw [Memory.read_place, if_pos (Nat.zero_le k), Nat.sub_zero],
    step_request h hd⟩

end Sys2Proof.Machine
end

section
/-! DIGIT and its table (42_character_encoders.md R79, 30_encoding.md R48; log 21). -/

namespace Sys2Proof.Machine

/-- DIGIT completes on every character (R79). -/
theorem exec_digit {c : Nat} (hc : c < 2 ^ 8) (s : State) : exec (.digit c) s = .next (performDigit c s) :=
  exec_admissible rfl ⟨decide_eq_true hc, nofun, within_zero _⟩

/-- R79: all that DIGIT, once admitted, does. -/
theorem performDigit_eq (c : Nat) (s : State) : performDigit c s =
    { s with req := { s.req with op := 3#4, char := BitVec.ofNat 8 c }
             res := ⟨0#2, 0#4, (digitOf (BitVec.ofNat 8 c)).setWidth 32, Config.freeCount s.freeIndex⟩
             freeIndex := s.freeIndex + 1 } := rfl

theorem performDigit_toNat_value (c : Byte) (s : State) : (performDigit c.toNat s).res.value = (digitOf c).setWidth 32 := by
  rw [performDigit_eq, BitVec.ofNat_toNat, BitVec.setWidth_eq]

/-- R79: the value returned for a character, case by case on its code. -/
def digitValue (c : Nat) : Word :=
  if 0x30 ≤ c ∧ c ≤ 0x39 then [0#32, 8#32, 4#32, 12#32, 2#32, 10#32, 6#32, 14#32, 1#32, 9#32].getD (c - 0x30) 0
  else if c = 0x20 then 3#32 else if c = 0x55 ∨ c = 0x75 then 13#32 else if c = 0x2D ∨ c = 0x5F then 11#32
  else if c = 0x28 ∨ c = 0x5B then 15#32 else if c = 0x29 ∨ c = 0x5D then 7#32 else 5#32

theorem setWidth_romRead (d : Nat) : (romRead d).setWidth 32 =
    [0#32, 8#32, 4#32, 12#32, 2#32, 10#32, 6#32, 14#32, 1#32, 9#32].getD d 0 :=
  (List.getD_map (l := Config.ROM) 0#4 (BitVec.setWidth 32)).symm

/-- R79: the machine's cases are those. -/
theorem setWidth_digitOf {c : Nat} (hc : c < 2 ^ 8) : (digitOf (BitVec.ofNat 8 c)).setWidth 32 = digitValue c := by
  have hnat : (BitVec.ofNat 8 c).toNat = c := Nat.mod_eq_of_lt hc
  simp only [digitOf, digitValue, BitVec.le_def, ← BitVec.toNat_inj, hnat, BitVec.toNat_ofNat, Nat.reducePow, Nat.reduceMod]
  split_ifs with hd
  · rw [setWidth_romRead, BitVec.toNat_sub_of_le (by rw [BitVec.le_def, hnat]; exact hd.1), hnat]
    rfl
  all_goals rfl

/-- Settles O18: DIGIT is admitted, and its value is read off case by case. -/
theorem digitCompletes : Obligations.DigitCompletes := by
  intro s c hc
  refine ⟨Config.freeCount s.freeIndex, ?_⟩
  rw [exec_digit hc, performDigit_eq, setWidth_digitOf hc]
  rfl

/-! The digit table. -/

/-- R48: 5 is the nibble of the characters not in the table, and of no other. -/
theorem digitOf_eq_five_iff (c : Byte) : digitOf c = 5#4 ↔ c ∉ layoutDigits.map Prod.fst := by
  have hval : ∀ e ∈ layoutDigits, e.2 ≠ 5#4 := by simp [layoutDigits]
  rw [digitOf_eq, layoutDigit]
  cases h : layoutDigits.lookup c with
  | none =>
    refine iff_of_true rfl fun hc => ?_
    obtain ⟨e, he, rfl⟩ := List.mem_map.1 hc
    exact absurd (List.lookup_eq_none_iff.1 h e he) (by simp)
  | some n =>
    obtain ⟨l, l', hl, -⟩ := List.lookup_eq_some_iff.1 h
    have hmem : (c, n) ∈ layoutDigits := hl ▸ List.mem_append_right l (List.mem_cons_self ..)
    exact iff_of_false (hval _ hmem) fun hn => hn (List.mem_map_of_mem hmem)

/-- R48: a character for each nibble; 'A' is in no row of the table. -/
def nibbleCharacters : List Byte :=
  [0x30, 0x38, 0x34, 0x20, 0x32, 0x41, 0x36, 0x29, 0x31, 0x39, 0x35, 0x2D, 0x33, 0x55, 0x37, 0x28]

theorem digitOf_nibbleCharacters : ∀ n : Nibble, digitOf (nibbleCharacters.getD n.toNat 0) = n := by decide

/-- Settles O19: the table row by row, the fallback by the lookup that finds no row, the range by a character for each nibble. -/
theorem digitTableIsTotal : Obligations.DigitTableIsTotal := by
  unfold Obligations.DigitTableIsTotal
  intro table
  have hrows : ∀ e ∈ table, digitOf e.1 = e.2.1 ∧ rev4 e.2.1 = e.2.2 := by
    rw [← List.forall_iff_forall_mem]
    decide
  refine ⟨hrows, fun c => (digitOf_eq_five_iff c).symm, by decide, ?_, fun n => ⟨_, digitOf_nibbleCharacters n⟩⟩
  decide +kernel

end Sys2Proof.Machine
end

section
/-! The bits of the words TEXT and NUMERIC write (42_character_encoders.md R85, R86), and where each character lies in them
(30_encoding.md R47, R49). -/

namespace Sys2Proof.Machine

/-- R44, R86: bit `30 - n` of message word `w` is stream bit `20w + n`. -/
theorem getLsbD_layoutMessageWord (numeric : Bool) (message : Nat → Byte) (L w : Nat) {n : Nat} (hn : n < 20) :
    (layoutMessageWord numeric message L w).getLsbD (30 - n) = streamBit numeric message L (20 * w + n) := by
  rw [layoutMessageWord, show 30 - n = 11 + (19 - n) by omega, getLsbD_codewordOf, BitVec.getLsbD_append, if_pos (by omega),
    layoutField, getLsbD_packBits, decide_eq_true (by omega), Bool.true_and, show 20 - 1 - (19 - n) = n by omega]

/-- R85: a bit of the stream lies in a message word. -/
theorem lt_layoutMessageWords {numeric : Bool} {L w : Nat} (h : 20 * w < L * layoutBits numeric) :
    w < layoutMessageWords numeric L := by
  unfold layoutMessageWords; omega

/-- R85: message word `w` of an admitted TEXT or NUMERIC stands at index w + (o + w) div 16. -/
theorem performEncoder_read_message (numeric : Bool) {o : Nat} (ho : o < 2 ^ 4) {L w : Nat} (hw : w < layoutMessageWords numeric L)
    (s : State) : OutSpace.read (performOf (if numeric then .numeric o L else .text o L) s).out (w + (o + w) / 16) =
      some (layoutMessageWord numeric (Memory.read s.msg) L w) := by
  have hle : (o + w) / 16 ≤ (o + layoutMessageWords numeric L) / 16 := Nat.div_le_div_right (by omega)
  obtain ⟨-, hout⟩ := performEncoder_out numeric ho L s
  rw [hout, OutSpace.read_place, length_streamWords ho, if_pos (by omega), Nat.sub_zero, streamWords_message ho _ hw,
    messageData_eq]
  rfl

/-- R47: bit `j` of a text character, in the message word that holds it. -/
theorem getLsbD_layoutMessageWord_text (message : Nat → Byte) {L i j : Nat} (hi : i < L) (hj : j < 7) :
    (layoutMessageWord false message L ((7 * i + j) / 20)).getLsbD (30 - (7 * i + j) % 20) = (message i).getLsbD j := by
  rw [getLsbD_layoutMessageWord _ _ _ _ (Nat.mod_lt _ (by decide)), Nat.div_add_mod, Nat.mul_comm, streamBit_text message hi hj]

/-- R49: the four bits of a numeric character, in the message word that holds it, are its nibble. -/
theorem extractLsb'_layoutMessageWord_numeric (message : Nat → Byte) {L w q : Nat} (hq : q < 5) (hi : 5 * w + q < L) :
    (layoutMessageWord true message L w).extractLsb' (27 - 4 * q) 4 = digitOf (message (5 * w + q)) := by
  refine BitVec.eq_of_getLsbD_eq fun j hj => ?_
  rw [BitVec.getLsbD_extractLsb', decide_eq_true hj, Bool.true_and, show 27 - 4 * q + j = 30 - (4 * q + (3 - j)) by omega,
    getLsbD_layoutMessageWord _ _ _ _ (by omega), show 20 * w + (4 * q + (3 - j)) = (5 * w + q) * 4 + (3 - j) by omega,
    streamBit_numeric message hi (by omega), show 3 - (3 - j) = j by omega]

/-- Settles O22: each character in the message word the encoder wrote, against what DIGIT returns for it or the byte itself. -/
theorem charactersLieInTheDataFields : Obligations.CharactersLieInTheDataFields := by
  refine ⟨fun s o L w q ha hq hi => ?_, fun s o L i j ha hi hj => ?_⟩
  · have ho : o < 2 ^ 4 := of_decide_eq_true ha.1
    have hw : w < layoutMessageWords true L := lt_layoutMessageWords (show 20 * w < L * 4 by omega)
    refine ⟨_, _, _, exec_admissible rfl ha, exec_digit (BitVec.isLt _) s, performEncoder_read_message true ho hw s, ?_⟩
    rw [extractLsb'_layoutMessageWord_numeric _ hq hi, performDigit_toNat_value]
  · have ho : o < 2 ^ 4 := of_decide_eq_true ha.1
    have hw : (7 * i + j) / 20 < layoutMessageWords false L :=
      lt_layoutMessageWords (show 20 * ((7 * i + j) / 20) < L * 7 by omega)
    exact ⟨_, _, exec_admissible rfl ha, performEncoder_read_message false ho hw s,
      getLsbD_layoutMessageWord_text _ hi hj⟩

end Sys2Proof.Machine
end

section
/-! CRC as the remainder of a division of polynomials over GF(2) (40_checksum_unit.md R64): bit strings as polynomials, the generator,
and what one column of R63 keeps. -/

namespace Sys2Proof.Machine

/-! Bit strings as polynomials. -/

theorem polynomialOf_coeff {w : Nat} (v : BitVec w) (n : Nat) : (polynomialOf v).coeff n = if v.getLsbD n then 1 else 0 := by
  have hterm : ∀ i, (if v.getLsbD i then Polynomial.X ^ i else 0 : Polynomial (ZMod 2)) =
      Polynomial.monomial i (if v.getLsbD i then 1 else 0) := by
    intro i
    split_ifs
    · exact (Polynomial.monomial_one_right_eq_X_pow i).symm
    · exact (map_zero _).symm
  simp only [polynomialOf, hterm, Polynomial.finsetSum_coeff, Polynomial.coeff_monomial, Finset.sum_ite_eq', Finset.mem_range]
  by_cases h : n < w
  · rw [if_pos h]
  · rw [if_neg h, BitVec.getLsbD_of_ge v n (by omega)]; rfl

theorem polynomialOf_degree_lt {w : Nat} (v : BitVec w) : (polynomialOf v).degree < w := by
  rw [Polynomial.degree_lt_iff_coeff_zero]
  intro n hn
  rw [polynomialOf_coeff, BitVec.getLsbD_of_ge v n hn]; rfl

theorem polynomialOf_injective {w : Nat} : Function.Injective (polynomialOf (w := w)) := by
  intro a b h
  have hbit : ∀ p q : Bool, (if p then 1 else 0 : ZMod 2) = (if q then 1 else 0) → p = q := by decide
  exact BitVec.eq_of_getLsbD_eq fun i _ => hbit _ _ (by rw [← polynomialOf_coeff, h, polynomialOf_coeff])

/-- R64: the XOR of bit strings is the sum of their polynomials. -/
theorem polynomialOf_xor {w : Nat} (a b : BitVec w) : polynomialOf (a ^^^ b) = polynomialOf a + polynomialOf b := by
  ext i
  rw [Polynomial.coeff_add, polynomialOf_coeff, polynomialOf_coeff, polynomialOf_coeff, BitVec.getLsbD_xor]
  cases a.getLsbD i <;> cases b.getLsbD i <;> decide

theorem polynomialOf_setWidth {w w' : Nat} (h : w ≤ w') (v : BitVec w) : polynomialOf (v.setWidth w') = polynomialOf v := by
  ext i
  rw [polynomialOf_coeff, polynomialOf_coeff, BitVec.getLsbD_setWidth]
  by_cases hi : i < w'
  · rw [decide_eq_true hi, Bool.true_and]
  · rw [decide_eq_false hi, BitVec.getLsbD_of_ge v i (by omega)]; rfl

/-- R64: `(a << n) | b` is `a(x) * x^n + b(x)`. -/
theorem polynomialOf_append {w n : Nat} (a : BitVec w) (b : BitVec n) :
    polynomialOf (a ++ b) = polynomialOf a * Polynomial.X ^ n + polynomialOf b := by
  ext i
  rw [Polynomial.coeff_add, Polynomial.coeff_mul_X_pow', polynomialOf_coeff, polynomialOf_coeff, polynomialOf_coeff,
    BitVec.getLsbD_append]
  by_cases hi : i < n
  · simp [hi]
  · simp [hi, Nat.not_lt.1 hi]

theorem polynomialOf_zero (w : Nat) : polynomialOf 0#w = 0 := by
  ext i
  rw [polynomialOf_coeff, BitVec.getLsbD_zero]; rfl

/-! The generator. -/

/-- R7, R64: g(x), written out. -/
theorem generatorPolynomial_eq : generatorPolynomial = Polynomial.X ^ 10 + Polynomial.X ^ 9 + Polynomial.X ^ 8 + Polynomial.X ^ 6 +
    Polynomial.X ^ 5 + Polynomial.X ^ 3 + 1 := by
  simp [generatorPolynomial, polynomialOf, Finset.sum_range_succ, Config.GEN]
  ring

theorem generatorPolynomial_coeff_ten : generatorPolynomial.coeff 10 = 1 := polynomialOf_coeff Config.GEN 10

theorem generatorPolynomial_degree_le : generatorPolynomial.degree ≤ (10 : Nat) :=
  Order.lt_succ_iff.1 (polynomialOf_degree_lt Config.GEN)

theorem generatorPolynomial_monic : generatorPolynomial.Monic :=
  Polynomial.monic_of_degree_le 10 generatorPolynomial_degree_le generatorPolynomial_coeff_ten

/-- A 10-bit value is its own remainder. -/
theorem polynomialOf_modByMonic_self (v : BitVec 10) : polynomialOf v %ₘ generatorPolynomial = polynomialOf v := by
  rw [Polynomial.modByMonic_eq_self_iff generatorPolynomial_monic,
    Polynomial.degree_eq_of_le_of_coeff_ne_zero generatorPolynomial_degree_le (generatorPolynomial_coeff_ten ▸ one_ne_zero)]
  exact polynomialOf_degree_lt v

/-- R63: what stands in `DEN` before column `n` is `g(x) * x^(20 - n)`. -/
theorem polynomialOf_den {n : Nat} (hn : n < 21) :
    polynomialOf (Config.GEN.setWidth 31 <<< 20 >>> n) = generatorPolynomial * Polynomial.X ^ (20 - n) := by
  have hden : ∀ n < 21, (Config.GEN.setWidth 31 <<< 20 >>> n : BitVec 31) = (Config.GEN ++ 0#(20 - n)).setWidth 31 := by decide
  rw [hden n hn, polynomialOf_setWidth (by omega), polynomialOf_append, polynomialOf_zero, add_zero]
  rfl

/-! The division. -/

/-- Each column subtracts a multiple of the generator or nothing, so the remainder stays what it was (R63). -/
theorem crcColumns_modByMonic (m : Data21) {n : Nat} (hn : n ≤ 21) :
    polynomialOf (crcColumns n (crcStart m)).msgreg %ₘ generatorPolynomial =
      (polynomialOf m * Polynomial.X ^ 10) %ₘ generatorPolynomial := by
  induction n with
  | zero =>
    show polynomialOf (m ++ 0#10) %ₘ _ = _
    rw [polynomialOf_append, polynomialOf_zero, add_zero]
  | succ n ih =>
    have hden : polynomialOf (crcColumns n (crcStart m)).den %ₘ generatorPolynomial = 0 := by
      rw [Polynomial.modByMonic_eq_zero_iff_dvd generatorPolynomial_monic, crcColumns_den]
      exact Dvd.intro _ (polynomialOf_den hn).symm
    rw [← ih (by omega), crcColumns_succ, crcColumn]
    dsimp only
    split_ifs
    · rw [polynomialOf_xor, Polynomial.add_modByMonic, hden, add_zero]
    · rfl

/-- R64: CRC is the remainder of `m(x) * x^10`. -/
theorem polynomialOf_crcOf (m : Data21) :
    polynomialOf (crcOf m) = (polynomialOf m * Polynomial.X ^ 10) %ₘ generatorPolynomial := by
  rw [← crcColumns_modByMonic m le_rfl]
  show _ = polynomialOf (crcRegs m).msgreg %ₘ _
  rw [crcRegs_msgreg, polynomialOf_setWidth (by decide), polynomialOf_modByMonic_self]

/-- R64: over GF(2), appending a 10-bit value makes the message divisible exactly when the value is the CRC. -/
theorem generatorPolynomial_dvd_append_iff (m : Data21) (v : BitVec 10) :
    generatorPolynomial ∣ polynomialOf (m ++ v) ↔ v = crcOf m := by
  rw [← Polynomial.modByMonic_eq_zero_iff_dvd generatorPolynomial_monic, polynomialOf_append, Polynomial.add_modByMonic,
    ← polynomialOf_crcOf, polynomialOf_modByMonic_self, CharTwo.add_eq_zero, polynomialOf_injective.eq_iff, eq_comm]

/-- Settles O9: the columns keep the remainder, and the last leaves a 10-bit one. -/
theorem crcIsTheUniqueRemainder : Obligations.CrcIsTheUniqueRemainder :=
  ⟨generatorPolynomial_eq, fun m => ⟨(generatorPolynomial_dvd_append_iff m _).2 rfl,
    fun v => (generatorPolynomial_dvd_append_iff m v).1, polynomialOf_crcOf m⟩⟩

end Sys2Proof.Machine
end

section
/-! CRC as a linear function (40_checksum_unit.md R65), and its operation (R63). -/

namespace Sys2Proof.Machine

/-- R65: CRC is additive. -/
theorem crcOf_xor (a b : Data21) : crcOf (a ^^^ b) = crcOf a ^^^ crcOf b := by
  have hstart : (a ^^^ b) ++ 0#10 = (a ++ 0#10) ^^^ (b ++ 0#10) := by rw [BitVec.xor_append, BitVec.xor_self]
  rw [crcOf, crcRegs, crcStart, hstart, crcColumns_xor, BitVec.extractLsb'_xor]
  rfl

/-- The low `n + 1` bits of a value are its low `n` bits and bit `n`. -/
theorem setWidth_setWidth_succ_eq_xor {w : Nat} (m : BitVec w) (n : Nat) : (m.setWidth (n + 1)).setWidth w =
    if m.getLsbD n then (m.setWidth n).setWidth w ^^^ 1#w <<< n else (m.setWidth n).setWidth w := by
  cases h : m.getLsbD n
  · exact BitVec.setWidth_setWidth_succ_eq_setWidth_setWidth_of_getLsbD_false h
  · refine BitVec.eq_of_getLsbD_eq fun i hi => ?_
    rw [if_pos rfl, ← BitVec.twoPow_eq]
    simp only [BitVec.getLsbD_xor, BitVec.getLsbD_setWidth, BitVec.getLsbD_twoPow]
    rcases lt_trichotomy i n with hlt | rfl | hgt
    · simp [hlt, hlt.ne', Nat.lt_succ_of_lt hlt, hi]
    · simp [h, hi]
    · simp [hgt.ne, show ¬ i < n by omega, show ¬ i < n + 1 by omega]

/-- R65: an additive function of a value is the XOR of its values on the single bits set, here among the low `n`. -/
theorem additive_eq_foldl_bits {w v : Nat} {f : BitVec w → BitVec v} {e : Nat → BitVec v}
    (hadd : ∀ a b, f (a ^^^ b) = f a ^^^ f b) (hbit : ∀ i < w, f (1#w <<< i) = e i) (m : BitVec w) {n : Nat} (hn : n ≤ w) :
    f ((m.setWidth n).setWidth w) =
      (List.range n).foldl (fun acc i => if m.getLsbD i then acc ^^^ e i else acc) 0#v := by
  induction n with
  | zero =>
    have hzero : f 0#w = 0#v := by rw [← BitVec.xor_self (x := 0#w), hadd, BitVec.xor_self]
    rw [BitVec.of_length_zero (x := m.setWidth 0), BitVec.setWidth_zero, hzero]
    rfl
  | succ n ih =>
    rw [List.range_succ, List.foldl_append, ← ih (by omega), setWidth_setWidth_succ_eq_xor, List.foldl_cons, List.foldl_nil]
    split_ifs
    · rw [hadd, hbit n hn]
    · rfl

/-- Settles O10: the table by running the unit on each single bit; the XOR over the bits set by additivity. -/
theorem crcIsLinearWithTheTabledBasis : Obligations.CrcIsLinearWithTheTabledBasis := by
  unfold Obligations.CrcIsLinearWithTheTabledBasis
  intro table
  have hbasis : ∀ i < 21, crcOf (1#21 <<< i) = table.getD i 0 := by decide +kernel
  refine ⟨crcOf_xor, hbasis, fun m => ?_, fun i hi => ?_⟩
  · have hfold := additive_eq_foldl_bits crcOf_xor hbasis m le_rfl
    rwa [BitVec.setWidth_eq, BitVec.setWidth_eq] at hfold
  · rw [hbasis i (by omega), hbasis (i + 1) (by omega)]
    revert i
    decide

/-- CRC completes on every 21-bit operand (R63). -/
theorem exec_crc {m : Nat} (hm : m < 2 ^ 21) (s : State) : exec (.crc m) s = .next (performCrc m s) :=
  exec_admissible rfl ⟨decide_eq_true hm, nofun, within_zero _⟩

/-- R63: all that CRC, once admitted, does. -/
theorem performCrc_eq (m : Nat) (s : State) : performCrc m s =
    { s with req := { s.req with op := 0#4, data := BitVec.ofNat 21 m }
             res := ⟨0#2, 0#4, (crcOf (BitVec.ofNat 21 m)).setWidth 32, Config.freeCount s.freeIndex⟩
             checksum := crcRegs (BitVec.ofNat 21 m)
             freeIndex := s.freeIndex + 1 } := rfl

/-- Settles O8: CRC is admitted, and the unit's registers hold the remainder, `GEN >> 1` and 21. -/
theorem crcCompletes : Obligations.CrcCompletes := by
  intro s m hm
  exact ⟨_, _, (exec_crc hm s).trans (congrArg _ (performCrc_eq m s)), crcRegs_msgreg _, crcRegs_den _, crcRegs_col _⟩

end Sys2Proof.Machine
end

section
/-! PARITY as the number of ones modulo 2 (40_checksum_unit.md R66, R67). -/

namespace Sys2Proof.Machine

/-- R67: PARITY is 1 when the number of ones is odd. -/
theorem parityOf_eq_true_iff (w : Word) : parityOf w = true ↔ popcount w % 2 = 1 := by
  rw [parityOf, xorBits_eq, decide_eq_true_eq, popcount]

theorem toNat_parityOf (w : Word) : (parityOf w).toNat = popcount w % 2 := by
  have hiff := parityOf_eq_true_iff w
  cases h : parityOf w
  · have hne : popcount w % 2 ≠ 1 := fun h1 => Bool.false_ne_true (h.symm.trans (hiff.2 h1))
    exact (Nat.mod_two_ne_one.1 hne).symm
  · exact (hiff.1 h).symm

/-- R9: a bit appended below adds itself to the number of ones. -/
theorem popcount_concat {w : Nat} (v : BitVec w) (b : Bool) : popcount (v.concat b) = popcount v + b.toNat := by
  have htail : ((fun i => (v.concat b).getLsbD i) ∘ Nat.succ) = fun i => v.getLsbD i :=
    funext fun i => by simp [BitVec.getLsbD_concat]
  rw [popcount, List.range_succ_eq_map, List.filter_cons, List.filter_map, htail, BitVec.getLsbD_concat, if_pos rfl, popcount]
  cases b <;> simp

/-- Settles O12: by the number of ones, which the appended parity makes even. -/
theorem parityIsOddCountAndAdditive : Obligations.ParityIsOddCountAndAdditive := by
  refine ⟨parityOf_eq_true_iff, fun a b => xorBits_xor a b 32, fun v => ?_⟩
  rw [popcount_concat, toNat_parityOf]
  omega

/-- PARITY completes on every 32-bit operand (R66). -/
theorem exec_parity {w : Nat} (hw : w < 2 ^ 32) (s : State) : exec (.parity w) s = .next (performParity w s) :=
  exec_admissible rfl ⟨decide_eq_true hw, nofun, within_zero _⟩

/-- R66: all that PARITY, once admitted, does. -/
theorem performParity_eq (w : Nat) (s : State) : performParity w s =
    { s with req := { s.req with op := 1#4, word := BitVec.ofNat 32 w }
             res := ⟨0#2, 0#4, (BitVec.ofBool (parityOf (BitVec.ofNat 32 w))).setWidth 32, Config.freeCount s.freeIndex⟩
             freeIndex := s.freeIndex + 1 } := rfl

/-- Settles O11: PARITY is admitted, and its bit, widened, is the number of ones modulo 2. -/
theorem parityCompletesWithTheCountOfOnes : Obligations.ParityCompletesWithTheCountOfOnes := by
  intro s w hw
  have hvalue : (BitVec.ofBool (parityOf (BitVec.ofNat 32 w))).setWidth 32 =
      BitVec.ofNat 32 (popcount (BitVec.ofNat 32 w) % 2) := by
    rw [← toNat_parityOf]
    cases parityOf (BitVec.ofNat 32 w) <;> rfl
  exact ⟨_, by rw [exec_parity hw, performParity_eq, hvalue]⟩

end Sys2Proof.Machine
end

section
/-! The Codeword Packer (41_codeword_packer.md): the fields of a codeword (R73, R76), its even number of ones (R74), its linearity
(R77), and its operation. -/

namespace Sys2Proof.Machine

/-! The fields of a codeword (R76). -/

/-- R73: the lowest bit of a codeword is the packer's `PBIT`. -/
@[simp] theorem getLsbD_codewordOf_zero (d : Data21) : (codewordOf d).getLsbD 0 = packParity d := BitVec.getLsbD_concat_zero

/-- R73: above its lowest bit a codeword is the packer's `FULL`. -/
theorem codewordOf_ushiftRight_one (d : Data21) : codewordOf d >>> 1 = (packFull d).setWidth 32 := by
  refine BitVec.eq_of_getLsbD_eq fun i hi => ?_
  rw [BitVec.getLsbD_ushiftRight, codewordOf, Nat.add_comm 1 i, BitVec.getLsbD_concat_succ, BitVec.getLsbD_setWidth,
    decide_eq_true hi, Bool.true_and]

/-- R76: `w >> 11` is the data. -/
theorem codewordOf_ushiftRight_eleven (d : Data21) : codewordOf d >>> 11 = d.setWidth 32 := by
  refine BitVec.eq_of_getLsbD_eq fun i hi => ?_
  rw [BitVec.getLsbD_ushiftRight, getLsbD_codewordOf, BitVec.getLsbD_setWidth, decide_eq_true hi, Bool.true_and]

/-- R76: `w[31:11]` is the data. -/
@[simp] theorem codewordOf_dataField (d : Data21) : (codewordOf d).extractLsb' 11 21 = d := by
  refine BitVec.eq_of_getLsbD_eq fun i hi => ?_
  rw [getLsbD_field hi, getLsbD_codewordOf]

/-- R76: `w[10:1]` is the CRC of the data. -/
theorem codewordOf_crcField (d : Data21) : (codewordOf d).extractLsb' 1 10 = crcOf d := by
  refine BitVec.eq_of_getLsbD_eq fun i hi => ?_
  rw [getLsbD_field hi, codewordOf, Nat.add_comm 1 i, BitVec.getLsbD_concat_succ, packFull, BitVec.getLsbD_append, if_pos hi]

/-- R76: a word is a codeword exactly when packing its top 21 bits gives it back: no other data could. -/
theorem exists_codewordOf_eq_iff (w : Word) : (∃ d, codewordOf d = w) ↔ codewordOf (w.extractLsb' 11 21) = w := by
  constructor
  · rintro ⟨d, rfl⟩
    rw [codewordOf_dataField]
  · exact fun h => ⟨_, h⟩

/-- R76: there are as many codewords as data. -/
theorem ncard_range_codewordOf : (Set.range codewordOf).ncard = 2 ^ 21 := by
  rw [Set.ncard_range_of_injective codewordOf_injective, Nat.card_congr BitVec.equivFin.toEquiv, Nat.card_fin]

/-- Settles O15: each field by its place in `{FULL, PBIT}`; the codewords are counted by their data. -/
theorem codewordFieldsAndRange : Obligations.CodewordFieldsAndRange := by
  refine ⟨fun d => ⟨codewordOf_dataField d, codewordOf_crcField d, ?_, ?_⟩, fun a b h => codewordOf_injective h,
    exists_codewordOf_eq_iff, ncard_range_codewordOf⟩
  · rw [getLsbD_codewordOf_zero, codewordOf_ushiftRight_one, packParity]
  · rw [codewordOf_ushiftRight_eleven, BitVec.toNat_setWidth_of_le (by decide)]

/-! The parity invariant (R74). -/

/-- R9: a zero bit above a value adds nothing to its number of ones. -/
theorem popcount_setWidth_succ {w : Nat} (v : BitVec w) : popcount (v.setWidth (w + 1)) = popcount v := by
  have htop : (v.setWidth (w + 1)).getLsbD w = false := by simp
  have hlow : ∀ i ∈ List.range w, (v.setWidth (w + 1)).getLsbD i = v.getLsbD i := fun i hi => by
    simp [Nat.lt_succ_of_lt (List.mem_range.1 hi)]
  rw [popcount, List.range_succ, List.filter_append, List.filter_congr hlow, List.filter_singleton, htop, popcount]
  simp

/-- R74: the appended bit makes the number of ones even. -/
theorem popcount_codewordOf_mod_two (d : Data21) : popcount (codewordOf d) % 2 = 0 := by
  rw [codewordOf, popcount_concat, packParity, toNat_parityOf, popcount_setWidth_succ]
  omega

/-- Settles O14: PARITY is the number of ones modulo 2, which the packer's parity bit makes 0. -/
theorem codewordHasEvenParity : Obligations.CodewordHasEvenParity := by
  refine fun d => ⟨?_, popcount_codewordOf_mod_two d⟩
  rw [← Bool.toNat_eq_zero, toNat_parityOf, popcount_codewordOf_mod_two]

/-! Linearity (R77). -/

theorem packFull_xor (a b : Data21) : packFull (a ^^^ b) = packFull a ^^^ packFull b := by
  rw [packFull, packFull, packFull, crcOf_xor, BitVec.xor_append]

/-- R67: PARITY is additive. -/
theorem parityOf_xor (v w : Word) : parityOf (v ^^^ w) = (parityOf v ^^ parityOf w) := xorBits_xor v w 32

theorem packParity_xor (a b : Data21) : packParity (a ^^^ b) = (packParity a ^^ packParity b) := by
  rw [packParity, packParity, packParity, packFull_xor, BitVec.setWidth_xor, parityOf_xor]

/-- R77: CODEWORD is additive. -/
theorem codewordOf_xor (a b : Data21) : codewordOf (a ^^^ b) = codewordOf a ^^^ codewordOf b := by
  rw [codewordOf, codewordOf, codewordOf, packFull_xor, packParity_xor, BitVec.concat_xor_concat]

/-- R77: the flag alone packs to `0x80000769`. -/
theorem codewordOf_flag : codewordOf (1#1 ++ 0#20) = 0x80000769#32 := by decide +kernel

/-- Settles O16: a message word's data is the flag XOR its field, and packing is additive. -/
theorem codewordIsLinear : Obligations.CodewordIsLinear := by
  refine ⟨codewordOf_xor, fun f => ?_⟩
  have hsplit : 1#1 ++ f = (1#1 ++ 0#20) ^^^ (0#1 ++ f) := by rw [BitVec.xor_append, BitVec.xor_zero, BitVec.zero_xor]
  rw [hsplit, codewordOf_xor, codewordOf_flag]

/-! The operation (R73). -/

/-- CODEWORD completes on every 21-bit operand (R73). -/
theorem exec_codeword {d : Nat} (hd : d < 2 ^ 21) (s : State) : exec (.codeword d) s = .next (performCodeword d s) :=
  exec_admissible rfl ⟨decide_eq_true hd, nofun, within_zero _⟩

/-- R73: all that CODEWORD, once admitted, does. -/
theorem performCodeword_eq (d : Nat) (s : State) : performCodeword d s =
    { s with req := { s.req with op := 2#4, data := BitVec.ofNat 21 d }
             res := ⟨0#2, 0#4, codewordOf (BitVec.ofNat 21 d), Config.freeCount s.freeIndex⟩
             checksum := crcRegs (BitVec.ofNat 21 d)
             packer := ⟨packFull (BitVec.ofNat 21 d), packParity (BitVec.ofNat 21 d)⟩
             freeIndex := s.freeIndex + 1 } := rfl

/-- Settles O13: CODEWORD is admitted, and the packer holds `FULL` and the parity bit of the result. -/
theorem codewordCompletes : Obligations.CodewordCompletes := by
  intro s d hd
  exact ⟨_, _, by rw [exec_codeword hd, performCodeword_eq, getLsbD_codewordOf_zero, packFull]⟩

end Sys2Proof.Machine
end


section
/-! One emitted message word (42_character_encoders.md R81), and what TEXT and NUMERIC write as a whole (R85, R86; logs 7, 21). -/

namespace Sys2Proof.Machine

/-- R81: the words an emission appends, the message word and its SYNC if one follows. -/
theorem length_message_syncAfter (wpos : Nat) : 1 + (syncAfter wpos).length = if wpos = 15 then 2 else 1 := by
  unfold syncAfter; split_ifs <;> rfl

/-- R81: what an emission leaves at each index of OUT. -/
theorem emitMsgWord_read (f : Field20) {s : State} (h : s.encoder.wpos ≤ 15) (k : Nat) :
    OutSpace.read (emitMsgWord f s).out k =
      if s.assembler.outptr ≤ k ∧ k < s.assembler.outptr + (if s.encoder.wpos = 15 then 2 else 1) then
        (codewordOf (1#1 ++ f) :: syncAfter s.encoder.wpos)[k - s.assembler.outptr]?
      else OutSpace.read s.out k := by
  rw [emitMsgWord_eq f s h, ← length_message_syncAfter, OutSpace.read_place, messageData_eq, List.length_cons,
    Nat.add_comm 1 (syncAfter _).length]

/-- Settles O20: the emission appends the message word and, from position 15 alone, a SYNC; OUT by the law of words in a row. -/
theorem messageWordEmission : Obligations.MessageWordEmission := by
  intro f s h t added
  have hpos : 0 < added := by unfold added; split_ifs <;> decide
  have ht := emitMsgWord_eq f s h
  rw [length_message_syncAfter] at ht
  refine ⟨?_, fun h15 => ?_, congrArg State.assembler ht, congrArg State.encoder ht, fun k hk => ?_⟩
  · rw [emitMsgWord_read f h, if_pos ⟨le_rfl, Nat.lt_add_of_pos_right hpos⟩, Nat.sub_self, List.getElem?_cons_zero]
  · rw [emitMsgWord_read f h, if_pos ⟨Nat.le_succ _, by rw [if_pos h15]; omega⟩, Nat.add_sub_cancel_left, syncAfter, if_pos h15]
    rfl
  · rw [emitMsgWord_read f h, if_neg (show ¬ (_ ∧ _ < _ + added) by omega)]

/-- R113: TEXT and NUMERIC are admitted on every offset of 0..15 within the bounds (log 7). -/
theorem admissible_encoder (numeric : Bool) {o L : Nat} {s : State} (ho : o < 2 ^ 4) (hL : within L s.params.lenMax)
    (hn : within (layoutEncoderWords numeric o L) s.params.lenMax) (hc : within (layoutEncoderWords numeric o L) s.outCapacity) :
    admissible (if numeric then .numeric o L else .text o L) s := by
  have hcounts : ∀ n ∈ [L, layoutEncoderWords numeric o L], within n s.params.lenMax := by simp [hL, hn]
  cases numeric <;> exact ⟨decide_eq_true ho, hcounts, hc⟩

/-- R85: a SYNC stands after every message word that an admitted TEXT or NUMERIC writes at position 15. -/
theorem performEncoder_read_sync (numeric : Bool) {o : Nat} (ho : o < 2 ^ 4) {L w : Nat} (hw : w < layoutMessageWords numeric L)
    (h15 : (o + w) % 16 = 15) (s : State) :
    OutSpace.read (performOf (if numeric then .numeric o L else .text o L) s).out (w + (o + w) / 16 + 1) = some Config.SYNC := by
  have hle : (o + (w + 1)) / 16 ≤ (o + layoutMessageWords numeric L) / 16 := Nat.div_le_div_right (by omega)
  obtain ⟨-, hout⟩ := performEncoder_out numeric ho L s
  rw [hout, OutSpace.read_place, length_streamWords ho, if_pos (by omega), Nat.sub_zero, streamWords_sync ho _ hw h15]

/-- R85: the position an admitted TEXT or NUMERIC ends at. -/
theorem performEncoder_wpos (numeric : Bool) {o : Nat} (ho : o < 2 ^ 4) (L : Nat) (s : State) :
    (performOf (if numeric then .numeric o L else .text o L) s).encoder.wpos = (o + layoutMessageWords numeric L) % 16 := by
  cases numeric
  · obtain ⟨_, _, -, hr, he⟩ := performText_run ho L s
    exact (congrArg (·.encoder.wpos) he).trans hr.wpos
  · obtain ⟨_, _, -, hr, he⟩ := performNumeric_run ho L s
    exact (congrArg (·.encoder.wpos) he).trans hr.wpos

/-- R85: an admitted TEXT or NUMERIC writes no word of OUT from its count on. -/
theorem performEncoder_read_above (numeric : Bool) {o : Nat} (ho : o < 2 ^ 4) (L : Nat) (s : State) {k : Nat}
    (hk : layoutEncoderWords numeric o L ≤ k) :
    OutSpace.read (performOf (if numeric then .numeric o L else .text o L) s).out k = OutSpace.read s.out k := by
  obtain ⟨-, hout⟩ := performEncoder_out numeric ho L s
  unfold layoutEncoderWords at hk
  rw [hout, OutSpace.read_place, length_streamWords ho, if_neg (by omega)]

/-- R86: bit `19 - j` of the data field of message word `w` is stream bit `20w + j`. -/
theorem getLsbD_layoutField (numeric : Bool) (message : Nat → Byte) (L w : Nat) {j : Nat} (hj : j < 20) :
    (layoutField numeric message L w).getLsbD (19 - j) = streamBit numeric message L (20 * w + j) := by
  rw [layoutField, getLsbD_packBits, decide_eq_true (by omega), Bool.true_and, show 20 - 1 - (19 - j) = j by omega]

/-- R85: m in numeric mode is ceil_div(L, 5). -/
theorem layoutMessageWords_numeric (L : Nat) : layoutMessageWords true L = (L + 4) / 5 := by
  rw [layoutMessageWords, layoutBits, if_pos rfl]; omega

/-- R85: m in text mode. -/
theorem layoutMessageWords_text (L : Nat) : layoutMessageWords false L = (L * 7 + 19) / 20 := rfl

/-- Settles O21: the request is admitted, and the words it writes are those of the stream's data fields and their SYNCs. -/
theorem encodersWriteTheirClosedForm : Obligations.EncodersWriteTheirClosedForm := by
  refine ⟨?_, layoutMessageWords_numeric, fun L => ?_⟩
  · rintro numeric i o L s rfl ho hL hn hc
    have hi : Instr.isRequest (if numeric then .numeric o L else .text o L) = true := by cases numeric <;> rfl
    obtain ⟨hstatus, hcode⟩ := performOf_ok _ s hi
    obtain ⟨hcount, -⟩ := performEncoder_out numeric ho L s
    refine ⟨_, exec_admissible hi (admissible_encoder numeric ho hL hn hc), hstatus, hcode, hcount, fun w hw => ?_,
      performEncoder_wpos numeric ho L s, fun k hk => performEncoder_read_above numeric ho L s (hcount ▸ hk)⟩
    exact ⟨layoutField numeric (Memory.read s.msg) L w, fun j hj => getLsbD_layoutField _ _ _ _ hj,
      performEncoder_read_message numeric ho hw s, fun h15 => performEncoder_read_sync numeric ho hw h15 s⟩
  · rw [layoutMessageWords_text]; omega

end Sys2Proof.Machine
end

section
/-! What TRANSMIT writes as a whole (43_frame_assembler.md R101 to R103): the padding of the last batch, the layout word by word, and
what follows from it of every word of a transmission (30_encoding.md R52, 41_codeword_packer.md R74; logs 7, 21). -/

namespace Sys2Proof.Machine

/-! The padding. -/

/-- R101: the padding is less than a batch, completes it, and is nothing when it is complete. -/
theorem paddingWords_spec (s : State) :
    paddingWords s < 17 ∧ (s.assembler.outptr - s.assembler.start + paddingWords s) % 17 = 0 ∧
      ((s.assembler.outptr - s.assembler.start) % 17 = 0 → paddingWords s = 0) := by
  unfold paddingWords Config.BATCH_WORDS
  omega

/-- Settles O28: step 7 is a counted run of `paddingWords` IDLE words. -/
theorem paddingCompletesTheBatch : Obligations.PaddingCompletesTheBatch := by
  intro s hs t
  obtain ⟨hlt, hmod, hzero⟩ := paddingWords_spec s
  have ht : t = _ := emitRun_eq (paddingWords s) Config.IDLE s
  have hstart : t.assembler.start = s.assembler.start := by rw [ht]
  have hptr : t.assembler.outptr = s.assembler.outptr + paddingWords s := by rw [ht]
  have hout : t.out = OutSpace.place s.out s.assembler.outptr (List.replicate (paddingWords s) Config.IDLE) := by rw [ht]
  refine ⟨hstart, by omega, by omega, ?_, fun h => by rw [hptr, hzero h, Nat.add_zero], fun k => ?_⟩
  · rw [hstart, hptr, Nat.sub_add_comm hs, hmod]
  · rw [hout, OutSpace.read_place, List.length_replicate, hptr]
    refine ite_congr rfl (fun hk => ?_) fun _ => rfl
    rw [List.getElem?_replicate, if_pos (by omega)]

/-! The layout. -/

/-- R102: a transmission has a batch, its batches hold the codewords, and the last batch has room for 15 words of padding at most. -/
theorem layoutBatches_spec (numeric : Bool) (a L : Nat) :
    1 ≤ layoutBatches numeric a L ∧ layoutCodewords numeric a L ≤ 16 * layoutBatches numeric a L ∧
      16 * layoutBatches numeric a L - layoutCodewords numeric a L ≤ 15 := by
  have hn : 2 ≤ layoutCodewords numeric a L := Nat.le_add_left 2 _
  unfold layoutBatches
  omega

/-- R102: every index of a transmission is of the preamble, of a batch's SYNC, or of a codeword of C. -/
theorem lt_layoutWords_cases {numeric : Bool} {a L k : Nat} (hk : k < layoutWords numeric a L) :
    k < 18 ∨ (∃ j < layoutBatches numeric a L, k = 18 + 17 * j) ∨
      ∃ i < 16 * layoutBatches numeric a L, k = 18 + 17 * (i / 16) + 1 + i % 16 := by
  unfold layoutWords at hk
  by_cases hpre : k < 18
  · exact .inl hpre
  · by_cases hsync : (k - 18) % 17 = 0
    · exact .inr (.inl ⟨(k - 18) / 17, by omega, by omega⟩)
    · exact .inr (.inr ⟨16 * ((k - 18) / 17) + ((k - 18) % 17 - 1), by omega, by omega⟩)

/-- R102: what the codewords of C are. -/
theorem layoutCodeword_cases (numeric : Bool) (a fn : Nat) (message : Nat → Byte) (L i : Nat) :
    layoutCodeword numeric a fn message L i = Config.IDLE ∨
    layoutCodeword numeric a fn message L i = layoutAddressWord a fn ∨
    ∃ f : Field20, layoutCodeword numeric a fn message L i = codewordOf (1#1 ++ f) := by
  unfold layoutCodeword
  split_ifs
  · exact .inl rfl
  · exact .inr (.inl rfl)
  · exact .inr (.inr ⟨_, rfl⟩)
  · exact .inl rfl

/-- R98: the address word is the codeword of C at index p. -/
theorem layoutCodeword_prefix (numeric : Bool) (a fn : Nat) (message : Nat → Byte) (L : Nat) :
    layoutCodeword numeric a fn message L (layoutPrefix a) = layoutAddressWord a fn := by
  rw [layoutCodeword, if_neg (lt_irrefl _), if_pos rfl]

/-- R98: the address word is a codeword of C, at index p. -/
theorem layoutPrefix_lt_codewords (numeric : Bool) (a L : Nat) : layoutPrefix a < 16 * layoutBatches numeric a L := by
  obtain ⟨-, hn, -⟩ := layoutBatches_spec numeric a L
  unfold layoutCodewords at hn
  omega

/-- R113: TRANSMIT is admitted on every address and function bits that fit, within the bounds (log 7). -/
theorem admissible_transmit {numeric : Bool} {a fn L : Nat} {s : State} (ha : a < 2 ^ 21) (hf : fn < 2 ^ 2)
    (hL : within L s.params.lenMax) (hn : within (layoutWords numeric a L) s.params.lenMax)
    (hc : within (layoutWords numeric a L) s.outCapacity) : admissible (.transmit numeric a fn L) s :=
  ⟨by simpa [Instr.wellFormed] using And.intro ha hf, by simp [Instr.boundedCounts, hL, hn], hc⟩

/-- R94: an admitted TRANSMIT ends with `PHASE` at `DONE` and `OUTPTR` at its count. -/
theorem performTransmit_assembler (numeric : Bool) (a fn L : Nat) (s : State) :
    (performOf (.transmit numeric a fn L) s).assembler.phase = .done ∧
      (performOf (.transmit numeric a fn L) s).assembler.outptr = (performOf (.transmit numeric a fn L) s).res.count := by
  obtain ⟨t, hr, he⟩ := performTransmit_run numeric a fn L s
  rw [performOf, he]
  exact ⟨hr.phase, rfl⟩

section
variable (numeric : Bool) {a : Nat} (ha : a < 2 ^ 21) (fn L : Nat) (s : State)
include ha

/-- R102: below its count an admitted TRANSMIT leaves the words of its list. -/
theorem performTransmit_read {k : Nat} (hk : k < layoutWords numeric a L) :
    OutSpace.read (performOf (.transmit numeric a fn L) s).out k = (transmissionOf numeric a fn (Memory.read s.msg) L)[k]? := by
  obtain ⟨-, hout⟩ := performTransmit_out numeric ha fn L s
  rw [hout, OutSpace.read_place, length_transmissionOf, if_pos (by omega), Nat.sub_zero]

/-- R95: the preamble. -/
theorem performTransmit_read_preamble {k : Nat} (hk : k < 18) :
    OutSpace.read (performOf (.transmit numeric a fn L) s).out k = some Config.PREAMBLE_WORD := by
  rw [performTransmit_read numeric ha fn L s (by unfold layoutWords; omega)]
  exact transmissionList_preamble _ _ _ hk

/-- R102: the SYNC at the head of batch `j`. -/
theorem performTransmit_read_sync {j : Nat} (hj : j < layoutBatches numeric a L) :
    OutSpace.read (performOf (.transmit numeric a fn L) s).out (18 + 17 * j) = some Config.SYNC := by
  rw [performTransmit_read numeric ha fn L s (by unfold layoutWords; omega)]
  exact transmissionList_sync _ (layoutPrefix_le a) _ _ hj

/-- R102: codeword `i` of C. -/
theorem performTransmit_read_codeword {i : Nat} (hi : i < 16 * layoutBatches numeric a L) :
    OutSpace.read (performOf (.transmit numeric a fn L) s).out (18 + 17 * (i / 16) + 1 + i % 16) =
      some (layoutCodeword numeric a fn (Memory.read s.msg) L i) := by
  rw [performTransmit_read numeric ha fn L s (by unfold layoutWords; omega)]
  refine (transmissionList_codeword _ (layoutPrefix_le a) _ hi).trans ?_
  rw [messageData_eq]
  rfl

end

/-- Settles O24: the request is admitted, and the words it writes are those of `transmissionOf`, each at its place. -/
theorem transmitWritesItsClosedForm : Obligations.TransmitWritesItsClosedForm := by
  intro numeric a fn L s ha hf hL hn hc
  have hadm : admissible (.transmit numeric a fn L) s := admissible_transmit ha hf hL hn hc
  obtain ⟨hB, hle, hpad⟩ := layoutBatches_spec numeric a L
  obtain ⟨hstatus, hcode⟩ := performOf_ok (.transmit numeric a fn L) s rfl
  obtain ⟨hcount, -⟩ := performTransmit_out numeric ha fn L s
  obtain ⟨hphase, hptr⟩ := performTransmit_assembler numeric a fn L s
  exact ⟨hB, hle, hpad, _, exec_admissible rfl hadm, hstatus, hcode, hcount,
    fun k hk => performTransmit_read_preamble numeric ha fn L s hk,
    fun j hj => performTransmit_read_sync numeric ha fn L s hj,
    fun i hi => performTransmit_read_codeword numeric ha fn L s hi,
    fun k hk => performOf_read_above hadm.1 s (hcount.ge.trans hk), hphase, hptr⟩

/-! The invariants. -/

/-- R52: no codeword of C is SYNC unless the address word is. -/
theorem layoutCodeword_ne_sync {numeric : Bool} {a fn : Nat} (ha : a < 2 ^ 21) (hf : fn < 2 ^ 2)
    (hx : ¬ ((2045056 ≤ a ∧ a ≤ 2045063) ∧ fn = 2)) (message : Nat → Byte) (L i : Nat) :
    layoutCodeword numeric a fn message L i ≠ Config.SYNC := by
  obtain ⟨-, -, haddr, -, hmsg, -⟩ := syncAndIdleAreTheSixteenAddressWords
  rcases layoutCodeword_cases numeric a fn message L i with h | h | ⟨f, h⟩
  · rw [h]; decide
  · rw [h, ← layoutAddressWord_eq ha, Ne, haddr, toNat_address ha, ← BitVec.toNat_inj, BitVec.toNat_ofNat,
      Nat.mod_eq_of_lt hf]
    exact hx
  · rw [h, ← messageData_eq]; exact (hmsg f).1

/-- R74: every codeword of C has even parity, IDLE among them. -/
theorem popcount_layoutCodeword_mod_two (numeric : Bool) (a fn : Nat) (message : Nat → Byte) (L i : Nat) :
    popcount (layoutCodeword numeric a fn message L i) % 2 = 0 := by
  rcases layoutCodeword_cases numeric a fn message L i with h | h | ⟨f, h⟩
  · rw [h, ← codewordOf_idle]; exact popcount_codewordOf_mod_two _
  · rw [h]; exact popcount_codewordOf_mod_two _
  · rw [h]; exact popcount_codewordOf_mod_two _

/-- R108: the calculator is admitted where TRANSMIT is, for the same arguments (log 7). -/
theorem admissible_sizing {numeric : Bool} {a fn L : Nat} {s : State} (h : admissible (.transmit numeric a fn L) s) :
    admissible (if numeric then .numlen a L else .textlen a L) s := by
  obtain ⟨hw, hcounts, -⟩ := h
  have ha : fitsPort 21 a = true := (Bool.and_eq_true_iff.1 hw).1
  cases numeric <;> exact ⟨ha, hcounts, within_zero _⟩

/-- R108: the calculator counts the words of the layout. -/
theorem performSizing_count (numeric : Bool) {a : Nat} (ha : a < 2 ^ 21) (L : Nat) (s : State) :
    (performOf (if numeric then .numlen a L else .textlen a L) s).res.count = layoutWords numeric a L := by
  have h : transmissionWords numeric (BitVec.ofNat 21 a) L = layoutWords numeric a L := by
    rw [transmissionWords_eq, toNat_address ha]
  rw [← h]
  cases numeric <;> exact congrArg (·.calculator.nw) (runCalculator_eq _ _)

/-- Settles O25: each word of the transmission is of the preamble, a batch's SYNC or a codeword of C, and the clauses hold of each. -/
theorem transmissionInvariants : Obligations.TransmissionInvariants := by
  intro numeric a fn L s t hadm ht
  cases (exec_admissible rfl hadm).symm.trans ht
  obtain ⟨ha, hf⟩ : a < 2 ^ 21 ∧ fn < 2 ^ 2 := by simpa [Instr.wellFormed] using hadm.1
  have hsizing : Instr.isRequest (if numeric then .numlen a L else .textlen a L) = true := by cases numeric <;> rfl
  obtain ⟨hB, -, -⟩ := layoutBatches_spec numeric a L
  obtain ⟨hcount, -⟩ := performTransmit_out numeric ha fn L s
  have hN : layoutWords numeric a L = 18 + 17 * layoutBatches numeric a L := rfl
  simp only [hcount, layoutAddressWord_eq ha]
  refine ⟨by omega, fun k h18 hk hmod => ?_, fun hx k hk hread => ?_, ?_, ?_, fun k h18 hk => ?_⟩
  · obtain ⟨j, rfl⟩ : ∃ j, k = 18 + 17 * j := ⟨(k - 18) / 17, by omega⟩
    exact performTransmit_read_sync numeric ha fn L s (by omega)
  · rcases lt_layoutWords_cases hk with hpre | ⟨j, -, rfl⟩ | ⟨i, hi, rfl⟩
    · rw [performTransmit_read_preamble numeric ha fn L s hpre] at hread
      exact absurd hread (by decide)
    · omega
    · rw [performTransmit_read_codeword numeric ha fn L s hi] at hread
      exact absurd (Option.some.inj hread) (layoutCodeword_ne_sync ha hf hx _ L i)
  · have hp : 18 + 1 + a % 8 * 2 = 18 + 17 * (layoutPrefix a / 16) + 1 + layoutPrefix a % 16 := by unfold layoutPrefix; omega
    rw [hp, performTransmit_read_codeword numeric ha fn L s (layoutPrefix_lt_codewords numeric a L), layoutCodeword_prefix]
  · obtain ⟨hok, -⟩ := performOf_ok _ s hsizing
    exact ⟨_, exec_admissible hsizing (admissible_sizing hadm), hok, performSizing_count numeric ha L s⟩
  · rcases lt_layoutWords_cases hk with hpre | ⟨j, hj, rfl⟩ | ⟨i, hi, rfl⟩
    · omega
    · refine ⟨_, performTransmit_read_sync numeric ha fn L s hj, ?_, .inl rfl⟩
      rw [← codewordOf_sync]; exact popcount_codewordOf_mod_two _
    · exact ⟨_, performTransmit_read_codeword numeric ha fn L s hi, popcount_layoutCodeword_mod_two _ _ _ _ _ _,
        .inr (layoutCodeword_cases numeric a fn _ L i)⟩

end Sys2Proof.Machine
end

section
/-! The Length Calculator (44_length_calculator.md): ADDROFF (R105), TEXTLEN and NUMLEN (R106 to R108), their count against the
words TRANSMIT writes (R109), and the messages of one batch (R110; logs 3, 7, 8). -/

namespace Sys2Proof.Machine

/-! ADDROFF. -/

/-- R54: the prefix length of an address that fits its port. -/
theorem addressOffset_ofNat {a : Nat} (ha : a < 2 ^ 21) : addressOffset (BitVec.ofNat 21 a) = layoutPrefix a := by
  rw [addressOffset_eq, toNat_address ha]

/-- ADDROFF completes on every 21-bit address (R105). -/
theorem exec_addroff {a : Nat} (ha : a < 2 ^ 21) (s : State) : exec (.addroff a) s = .next (performAddroff a s) :=
  exec_admissible rfl ⟨decide_eq_true ha, nofun, within_zero _⟩

/-- R105: all that ADDROFF, once admitted, does. -/
theorem performAddroff_eq (a : Nat) (s : State) : performAddroff a s =
    { s with req := { s.req with op := 7#4, address := BitVec.ofNat 21 a }
             res := ⟨0#2, 0#4, Config.freeValue s.freeIndex, addressOffset (BitVec.ofNat 21 a)⟩
             freeIndex := s.freeIndex + 1 } := rfl

/-- Settles O30: ADDROFF is admitted, and the prefix length is twice the address's low three bits. -/
theorem addroffCompletes : Obligations.AddroffCompletes := by
  intro s a ha
  exact ⟨_, by rw [exec_addroff ha, performAddroff_eq, addressOffset_ofNat ha, layoutPrefix]⟩

/-! TEXTLEN and NUMLEN. -/

/-- R113: the calculator is admitted exactly where the address fits and the length and the count are within LEN_MAX (log 7). -/
theorem admissible_sizing_iff (numeric : Bool) (a L : Nat) (s : State) :
    admissible (if numeric then .numlen a L else .textlen a L) s ↔
      a < 2 ^ 21 ∧ within L s.params.lenMax ∧ within (layoutWords numeric a L) s.params.lenMax := by
  cases numeric <;> simp [admissible, Instr.wellFormed, fitsPort, Instr.boundedCounts, Instr.wordsWritten]

/-- The sizing operations are requests (R58). -/
theorem isRequest_sizing (numeric : Bool) (a L : Nat) :
    Instr.isRequest (if numeric then .numlen a L else .textlen a L) = true := by cases numeric <;> rfl

/-- R106, R107: all that TEXTLEN or NUMLEN, once admitted, does. -/
theorem performSizing_eq (numeric : Bool) {a : Nat} (ha : a < 2 ^ 21) (L : Nat) (s : State) :
    performOf (if numeric then .numlen a L else .textlen a L) s =
      { s with req := { s.req with op := if numeric then 9#4 else 8#4, address := BitVec.ofNat 21 a, length := L }
               res := ⟨0#2, 0#4, Config.freeValue s.freeIndex, layoutWords numeric a L⟩
               calculator := ⟨layoutWords numeric a L⟩
               freeIndex := s.freeIndex + 1 } := by
  have hwords : transmissionWords numeric (BitVec.ofNat 21 a) L = layoutWords numeric a L := by
    rw [transmissionWords_eq, toNat_address ha]
  rw [← hwords]
  cases numeric <;> exact congrArg (fun t => finishCount t.calculator.nw t) (runCalculator_eq _ _)

/-- R108: the layout's word count is the codewords rounded up to whole batches, a SYNC for each batch, and the preamble. -/
theorem layoutWords_eq_padded (numeric : Bool) (a L : Nat) :
    let padded := (layoutCodewords numeric a L + 16 - 1) / 16 * 16
    layoutWords numeric a L = padded + padded / 16 + 18 := by
  simp only [layoutWords, layoutBatches]
  omega

/-- R108: the codewords through the end marker, summed in the calculator's order. -/
theorem layoutCodewords_eq_sum (numeric : Bool) (a L : Nat) :
    layoutCodewords numeric a L = (a % 8) * 2 + 1 + (L * (if numeric then 4 else 7) + 20 - 1) / 20 + 1 := by
  simp only [layoutCodewords, layoutPrefix, layoutMessageWords, layoutBits]
  omega

/-- Settles O31: the request is admitted, and what it counts is the layout's words, which are the formula's. -/
theorem sizingFormula : Obligations.SizingFormula := by
  rintro numeric i s a L rfl ha n padded words hL hwords
  have hN : words = layoutWords numeric a L := by
    rw [layoutWords_eq_padded, layoutCodewords_eq_sum]
  obtain ⟨hB, -, -⟩ := layoutBatches_spec numeric a L
  rw [hN] at hwords ⊢
  exact ⟨⟨layoutBatches numeric a L, hB, rfl⟩, _, by
    rw [exec_admissible (isRequest_sizing numeric a L) ((admissible_sizing_iff numeric a L s).2 ⟨ha, hL, hwords⟩),
      performSizing_eq numeric ha]⟩

/-! The count is the number of words written. -/

/-- An index of OUT is listed after a run of writes when the run wrote it or it was listed before. -/
theorem OutSpace.isSome_read_place (ws : List Word) (o : OutSpace) (p k : Nat) :
    (OutSpace.read (OutSpace.place o p ws) k).isSome =
      (decide (p ≤ k ∧ k < p + ws.length) || (OutSpace.read o k).isSome) := by
  rw [OutSpace.read_place]
  split_ifs with h
  · rw [List.getElem?_eq_getElem (by omega), decide_eq_true h, Bool.true_or, Option.isSome_some]
  · rw [decide_eq_false h, Bool.false_or]

/-- A cell set at an index that is not listed adds one pair. -/
theorem length_setCell_of_unlisted {α : Type} {k : Nat} {l : List (Nat × α)} (h : cellAt k l = none) (v : α) :
    (setCell k v l).length = l.length + 1 := by
  induction l with
  | nil => rfl
  | cons p t ih =>
    obtain ⟨a, x⟩ := p
    have hne : a ≠ k := fun ha => by simp [cellAt, ha] at h
    rw [cellAt, if_neg hne] at h
    simp only [setCell, if_neg hne.symm]
    split_ifs
    · rfl
    · rw [List.length_cons, ih h, List.length_cons]

/-- Words placed where nothing is listed add a pair each. -/
theorem OutSpace.length_place (ws : List Word) {o : OutSpace} {p : Nat} (h : ∀ k, p ≤ k → OutSpace.read o k = none) :
    (OutSpace.place o p ws).length = o.length + ws.length := by
  induction ws generalizing o p with
  | nil => rfl
  | cons w ws ih =>
    have hrest : ∀ k, p + 1 ≤ k → OutSpace.read (OutSpace.write o p w) k = none := fun k hk => by
      rw [OutSpace.read_write, if_neg (by omega), h k (by omega)]
    have hwrite : (OutSpace.write o p w).length = o.length + 1 := length_setCell_of_unlisted (h p le_rfl) w
    rw [OutSpace.place, ih hrest, hwrite, List.length_cons]
    omega

/-- Settles O26: both counts are the layout's words, and OUT is the transmission's list, as long as that, placed from index 0. -/
theorem lengthAgreement : Obligations.LengthAgreement := by
  intro numeric a fn L s t u v hadm ht hparams hv
  have hsizing := (admissible_sizing_iff numeric a L s).1 (admissible_sizing hadm)
  have ha : a < 2 ^ 21 := hsizing.1
  rw [← hparams] at hsizing
  cases (exec_admissible rfl hadm).symm.trans ht
  cases (exec_admissible (isRequest_sizing numeric a L) ((admissible_sizing_iff numeric a L u).2 hsizing)).symm.trans hv
  obtain ⟨hcount, hout⟩ := performTransmit_out numeric ha fn L s
  have hlen := length_transmissionOf numeric a fn (Memory.read s.msg) L
  rw [performSizing_eq numeric ha, hcount, hout]
  refine ⟨rfl, rfl, fun k => ?_, fun hempty => ?_⟩
  · simp [OutSpace.isSome_read_place, hlen]
  · rw [hempty, OutSpace.length_place _ fun _ _ => rfl, hlen]
    exact Nat.zero_add _

/-! The messages of one batch. -/

/-- R110: a transmission is of one batch when the prefix and the message words are at most 14 codewords. -/
theorem layoutWords_eq_one_batch_iff (numeric : Bool) (a L : Nat) :
    layoutWords numeric a L = 35 ↔ 2 * (a % 8) + layoutMessageWords numeric L ≤ 14 := by
  simp only [layoutWords, layoutBatches, layoutCodewords, layoutPrefix]
  omega

/-- R110: the table's column for text mode is the characters, of 7 bits, that fit in the words of 20 bits the prefix leaves. -/
theorem oneBatchText_eq : ∀ f < 8, [40, 34, 28, 22, 17, 11, 5, 0].getD f 0 = 20 * (14 - 2 * f) / 7 := by decide

/-- Settles O32: the count is the layout's, and what one batch leaves to the message bounds its characters in either mode. -/
theorem oneBatchLimits : Obligations.OneBatchLimits := by
  refine ⟨fun numeric a L => ?_, fun a L => ?_, fun a L => ?_⟩
  · rw [transmissionWords_eq, messageWords_eq]
    simp only [layoutWords, layoutBatches, layoutCodewords, layoutPrefix]
    omega
  · rw [transmissionWords_eq, layoutWords_eq_one_batch_iff, layoutMessageWords_text, oneBatchText_eq _ (Nat.mod_lt _ (by decide))]
    omega
  · rw [transmissionWords_eq, layoutWords_eq_one_batch_iff, layoutMessageWords_numeric]
    omega

end Sys2Proof.Machine
end

section
/-! The outcomes of a presented request in the order of their checks (60_exceptions.md R113 to R121), and that neither an instruction nor
a step stops the machine (R122, 70_reset_and_hazards.md R132; logs 5, 7, 9, 10). -/

namespace Sys2Proof.Machine

/-! Each check's own outcome. -/

section
variable {i : Instr} {s : State} (hi : i.isRequest = true)
include hi

/-- R118: an operand too wide is refused, whatever the lengths and the capacity. -/
theorem exec_of_wide (hw : i.wellFormed = false) : exec i s = .next (reject .operandTooWide s) := by
  rw [exec_request i s hi, checkRequest_of_wide hw, complete_some]

/-- R116: a length or count above LEN_MAX is refused, whatever the capacity (log 7). -/
theorem exec_of_long (hw : i.wellFormed = true) (hc : ∃ n ∈ i.boundedCounts, ¬ within n s.params.lenMax) :
    exec i s = .next (reject .lengthTooLarge s) := by
  rw [exec_request i s hi, checkRequest_of_long hw _ hc, complete_some]

/-- R117: an operation with more words to write than the capacity faults. -/
theorem exec_of_overrun (hw : i.wellFormed = true) (hc : ∀ n ∈ i.boundedCounts, within n s.params.lenMax)
    (ho : ¬ within i.wordsWritten s.outCapacity) : exec i s = .next (reject .outputOverrun s) := by
  rw [exec_request i s hi, checkRequest_of_overrun hw hc ho, complete_some]

end

/-! Completion. -/

/-- Settles O36: an admissible request ends `OK`, any other is rejected with a legal pair, a word format sends its word. -/
theorem everyInstructionCompletes : Obligations.EveryInstructionCompletes := by
  intro i s
  cases hi : i.isRequest with
  | true =>
    rcases exec_cases i s hi with ⟨-, hs⟩ | ⟨hn, r, hs⟩
    · obtain ⟨hstatus, hcode⟩ := performOf_ok i s hi
      exact ⟨_, hs, fun _ => ResultRegs.legal_of_ok hstatus hcode, fun _ _ => ⟨hstatus, hcode⟩⟩
    · exact ⟨_, hs, fun _ => reject_legal r s, fun _ ha => absurd ha hn⟩
  | false =>
    obtain ⟨w, hs⟩ := exec_wordFormat hi s
    exact ⟨_, hs, nofun, nofun⟩

/-- No instruction stops the machine (logs 9, 10). -/
theorem exec_next (i : Instr) (s : State) : ∃ t, exec i s = .next t := by
  obtain ⟨t, ht, -, -⟩ := everyInstructionCompletes i s
  exact ⟨t, ht⟩

/-- Settles O50: a step that runs an instruction answers what that answers, and every other case of a step names its next state. -/
theorem everyStepAnswersANextState : Obligations.EveryStepAnswersANextState := by
  intro s
  cases step_cases s with
  | runs _ _ _ _ _ _ _ _ hs | sends _ _ _ hs => exact hs ▸ exec_next _ _
  | waits _ hs | reserved _ _ _ _ _ _ _ hs | resets _ _ hs | abandons _ _ _ _ _ hs | leaves _ _ _ _ hs | starts _ _ _ hs
  | rests _ _ _ hs => exact ⟨_, hs⟩

/-! A presented request. -/

/-- R58: the numbers up to 10 select an operation, the others are reserved. -/
theorem decodePorts_cases (p : Ports) :
    (p.op.toNat ≤ 10 ∧ ∃ i, decodePorts p = .instr i) ∨ (11 ≤ p.op.toNat ∧ decodePorts p = .reservedOp p.op) := by
  unfold decodePorts
  split
  case h_12 => exact .inr ⟨by grind, rfl⟩
  all_goals exact .inl ⟨by omega, _, rfl⟩

theorem decodePorts_operation {p : Ports} (h : p.op.toNat ≤ 10) : ∃ i, decodePorts p = .instr i := by
  rcases decodePorts_cases p with ⟨-, hd⟩ | ⟨hr, -⟩
  · exact hd
  · omega

theorem decodePorts_reserved {p : Ports} (h : 11 ≤ p.op.toNat) : decodePorts p = .reservedOp p.op := by
  rcases decodePorts_cases p with ⟨ho, -⟩ | ⟨-, hd⟩
  · omega
  · exact hd

/-- R116, R120: the first check, at the step that presents the request. -/
theorem step_reserved {s : State} {ports : Ports} {message : List Byte} {capacity : Option Nat} {rest : List Event}
    (h : s.inbox = .request ports message capacity :: rest) (hr : 11 ≤ ports.op.toNat) :
    step s = .next (reject .reservedOp (presentRequest message capacity (s.setInbox rest))) := by
  simp only [step, fetch, h, fetchRequest, decodePorts_reserved hr]

/-- Settles O37: a reserved number by its step; of any other, the operation's outcome under each check's hypotheses, in the state with
the request's capacity in force. -/
theorem checksInOrder : Obligations.ChecksInOrder := by
  intro s ports message capacity rest h
  refine ⟨fun hr => ⟨_, step_reserved h hr, rfl, rfl⟩, fun i hd => ?_, decodePorts_operation⟩
  have hi : i.isRequest = true := decodePorts_isRequest hd
  obtain ⟨t, ht⟩ := exec_next i (presentRequest message capacity (s.setInbox rest))
  refine ⟨t, (step_request h hd).trans ht, fun hw => ?_, fun hw hc => ?_, fun hw hc ho => ?_, fun hw hc ho => ?_⟩
  · cases ht.symm.trans (exec_of_wide hi hw)
    exact ⟨rfl, rfl⟩
  · cases ht.symm.trans (exec_of_long hi hw hc)
    exact ⟨rfl, rfl⟩
  · cases ht.symm.trans (exec_of_overrun hi hw hc ho)
    exact ⟨rfl, rfl⟩
  · cases ht.symm.trans (exec_admissible hi ⟨hw, hc, ho⟩)
    exact performOf_ok i _ hi

/-! The capacity. -/

/-- R83, R84, R93: the operations that write words are requests. -/
theorem isRequest_of_writesWords {i : Instr}
    (h : (∃ o L, i = .text o L ∨ i = .numeric o L) ∨ ∃ num a fn L, i = .transmit num a fn L) : i.isRequest = true := by
  rcases h with ⟨o, L, rfl | rfl⟩ | ⟨num, a, fn, L, rfl⟩ <;> rfl

/-- Settles O38: too small a capacity is the third check's rejection; otherwise the operation runs, and leaves OUT from its count on. -/
theorem capacityIsAPrecondition : Obligations.CapacityIsAPrecondition := by
  intro i s hw hc hwrites
  have hi : i.isRequest = true := isRequest_of_writesWords hwrites
  obtain ⟨t, ht⟩ := exec_next i s
  have hruns : within i.wordsWritten s.outCapacity → t = performOf i s := fun ho => by
    cases (exec_admissible hi ⟨hw, hc, ho⟩).symm.trans ht
    rfl
  obtain ⟨hok, -⟩ := performOf_ok i s hi
  refine ⟨t, ht, fun c hcap hlt => ?_, fun c hcap hle => ?_, fun hcap => ?_⟩
  · have ho : ¬ within i.wordsWritten s.outCapacity := by rw [hcap]; exact Nat.not_le.2 hlt
    cases (exec_of_overrun hi hw hc ho).symm.trans ht
    exact ⟨rfl, rfl, rfl⟩
  · rw [hruns (by rw [hcap]; exact hle)]
    refine ⟨hok, fun k hk => ?_⟩
    by_contra hck
    exact hk (performOf_read_above hw s (by omega))
  · rw [hruns (by rw [hcap]; trivial)]
    exact hok

/-! What a rejection leaves. -/

/-- R121: a request that does not end `OK` was rejected. -/
theorem exec_eq_reject_of_not_ok {i : Instr} {s t : State} (hi : i.isRequest = true) (h : exec i s = .next t)
    (hn : t.res.status ≠ 0#2) : ∃ r, t = reject r s := by
  rcases exec_cases i s hi with ⟨-, hs⟩ | ⟨-, r, hs⟩
  · cases hs.symm.trans h
    obtain ⟨hok, -⟩ := performOf_ok i s hi
    exact absurd hok hn
  · cases hs.symm.trans h
    exact ⟨r, rfl⟩

/-- R31: what MSG reads once a message is placed from address 0 on, over what it held (log 12). -/
theorem Memory.read_place_zero (m : Memory) (message : List Byte) (k : Nat) :
    Memory.read (Memory.place m 0 message) k = (message[k]?).getD (Memory.read m k) := by
  rw [Memory.read_place, if_pos (Nat.zero_le k), Nat.sub_zero]

/-- Settles O39: both are a `reject`, of the state before or of the one with the request presented. -/
theorem rejectionHasNoOtherEffect : Obligations.RejectionHasNoOtherEffect := by
  refine ⟨fun i s t hi h hn => ?_, fun s ports message capacity rest h hr => ?_⟩
  · obtain ⟨r, rfl⟩ := exec_eq_reject_of_not_ok hi h hn
    exact ⟨_, _, _, _, reject_eq r s⟩
  · exact ⟨Memory.place s.msg 0 message, _, _, Memory.read_place_zero s.msg message, step_reserved h hr⟩

end Sys2Proof.Machine
end

section
/-! A reset of the block between two operations and in the middle of one (70_reset_and_hazards.md R129; logs 1, 5, 6, 12, 18), and the
storage that suffices for every message of a length (R135). -/

namespace Sys2Proof.Machine

/-! The storage bound. -/

/-- R135: frame 7 in text mode has the longest prefix and the most message words, so no transmission of the length is longer. -/
theorem layoutWords_le_worst (numeric : Bool) (a L : Nat) : layoutWords numeric a L ≤ layoutWords false 7 L := by
  have hprefix : layoutPrefix a ≤ layoutPrefix 7 := layoutPrefix_le a
  have hmessage : layoutMessageWords numeric L ≤ layoutMessageWords false L := by
    cases numeric
    · exact le_rfl
    · rw [layoutMessageWords_numeric, layoutMessageWords_text]; omega
  unfold layoutWords layoutBatches layoutCodewords
  omega

/-- R110, R135: the longest transmission of a length, written out. -/
theorem layoutWords_worst (L : Nat) : layoutWords false 7 L = 18 + 17 * ((14 + 2 + (7 * L + 19) / 20 + 15) / 16) := by
  rw [layoutWords, layoutBatches, layoutCodewords, layoutMessageWords_text, layoutPrefix]
  omega

/-- Settles O33: the request is admitted, since it writes at most the longest transmission's words, and what it reports is those. -/
theorem worstFrameBoundSuffices : Obligations.WorstFrameBoundSuffices := by
  intro numeric a fn L c s ha hf hmax hcap hc
  have hfits : layoutWords numeric a L ≤ c := (layoutWords_le_worst numeric a L).trans ((layoutWords_worst L).trans_le hc)
  have hadm : admissible (.transmit numeric a fn L) s :=
    admissible_transmit ha hf (hmax ▸ trivial) (hmax ▸ trivial) (hcap ▸ hfits)
  obtain ⟨hok, -⟩ := performOf_ok (.transmit numeric a fn L) s rfl
  obtain ⟨hcount, -⟩ := performTransmit_out numeric ha fn L s
  exact ⟨_, exec_admissible rfl hadm, hok, hcount.trans_le hfits⟩

/-! A reset in the middle of an operation. -/

/-- R129: the step that resets the block. -/
theorem step_reset {s : State} {rest : List Event} (h : s.inbox = .reset :: rest) :
    step s = .next (resetBlock (s.setInbox rest)) := by
  simp only [step, fetch, h]

/-- R129: the step that resets it in the middle of an operation, whose request had been presented (U13). -/
theorem step_resetDuring {s : State} {ports : Ports} {message : List Byte} {capacity : Option Nat} {rest : List Event}
    (h : s.inbox = .resetDuring ports message capacity :: rest) :
    step s = .next (resetMidOperation (presentRequest message capacity (s.setInbox rest))) := by
  simp only [step, fetch, h]

/-- Settles O42: such a reset is a reset of the block, with the request's bytes and capacity in place and nothing listed in OUT. -/
theorem midOperationResetAbandons : Obligations.MidOperationResetAbandons := by
  intro s _ message _ _ h
  exact ⟨_, _, step_resetDuring h, step_reset rfl, rfl, rfl, rfl, fun _ => rfl, Memory.read_place_zero s.msg message⟩

/-! A reset between two operations. -/

theorem KeepsEncoderFrame.outEpoch {s t : State} (h : KeepsEncoderFrame s t) : t.outEpoch = s.outEpoch := by rw [h]

theorem KeepsTransmitFrame.outEpoch {s t : State} (h : KeepsTransmitFrame s t) : t.outEpoch = s.outEpoch := by rw [h]

/-- The contents of OUT's unlisted words are no operation's to change (log 13). -/
theorem performOf_outEpoch {i : Instr} (hw : i.wellFormed = true) (s : State) : (performOf i s).outEpoch = s.outEpoch := by
  cases i with
  | text o L => exact (performText_keepsFrame (o := o) (by simpa [Instr.wellFormed] using hw) L s).outEpoch
  | numeric o L => exact (performNumeric_keepsFrame (o := o) (by simpa [Instr.wellFormed] using hw) L s).outEpoch
  | transmit n a fn L => exact (performTransmit_keepsFrame n a fn L s).outEpoch
  | crc | parity | codeword | digit | addroff | textlen | numlen | nop | sync | idle | preambleWord | addressWord
  | messageWord => rfl

/-- Nor are they any request's, rejected or not (R121). -/
theorem exec_request_outEpoch {i : Instr} {s t : State} (hi : i.isRequest = true) (h : exec i s = .next t) :
    t.outEpoch = s.outEpoch := by
  rcases exec_cases i s hi with ⟨⟨hw, -, -⟩, hs⟩ | ⟨-, r, hs⟩
  · cases hs.symm.trans h
    exact performOf_outEpoch hw s
  · cases hs.symm.trans h
    rfl

/-- Two states alike in MSG, OUT, the parameters and the capacity are alike in OUT after one request, whatever their registers: below
its count the words are the request's, and every other word is as before (R28, R35). -/
theorem exec_request_read_eq {i : Instr} {s u t v : State} (hi : i.isRequest = true) (ht : exec i s = .next t)
    (hv : exec i u = .next v) (hparams : u.params = s.params) (hcapacity : u.outCapacity = s.outCapacity) (hmsg : u.msg = s.msg)
    (hout : u.out = s.out) (k : Nat) : OutSpace.read v.out k = OutSpace.read t.out k := by
  obtain ⟨hstatus, -, -, -, hwords⟩ :=
    resultsDependOnTheRequestAlone i s u t v hi hparams hcapacity (fun _ _ => by rw [hmsg]) ht hv
  by_cases hk : i.wordsWritten ≤ k ∨ t.res.status ≠ 0#2
  · rw [exec_request_read_unwritten hi hv (hstatus ▸ hk), exec_request_read_unwritten hi ht hk, hout]
  · obtain ⟨hbelow, hok⟩ := not_or.1 hk
    exact hwords (not_not.1 hok) k (Nat.not_le.1 hbelow)

/-- Settles O41: after the reset the request runs from a state that differs in the block's registers alone, on which nothing it returns
or writes depends. -/
theorem resetBetweenOperationsIsInvisible : Obligations.ResetBetweenOperationsIsInvisible := by
  rintro s u ports message capacity rest i h hd rfl
  have hi : i.isRequest = true := decodePorts_isRequest hd
  let p : State := presentRequest message capacity (s.setInbox rest)
  obtain ⟨t, ht⟩ := exec_next i (resetBlock p)
  obtain ⟨v, hv⟩ := exec_next i p
  obtain ⟨hstatus, hcode, hvalue, hcount, -⟩ :=
    resultsDependOnTheRequestAlone i p (resetBlock p) v t hi rfl rfl (fun _ _ => rfl) hv ht
  obtain ⟨hmsg, hinbox, -⟩ := exec_request_callers hi ht
  obtain ⟨hmsg', hinbox', -⟩ := exec_request_callers hi hv
  have hread (k : Nat) : OutSpace.read t.out k = OutSpace.read v.out k := exec_request_read_eq hi hv ht rfl rfl rfl rfl k
  have hepoch : t.outEpoch = v.outEpoch := (exec_request_outEpoch hi ht).trans (exec_request_outEpoch hi hv).symm
  exact ⟨_, t, v, step_reset h, rfl, rfl, (step_request rfl hd).trans ht, (step_request rfl hd).trans hv, hstatus, hcode,
    hmsg.trans hmsg'.symm, hinbox.trans hinbox'.symm, hvalue, hcount,
    fun k => ⟨hread k, State.outWord_congr (hread k) hepoch⟩⟩

end Sys2Proof.Machine
end
